-- ==== Sys2Proof/Word.lean ====
section
/-! DEFINITION. The word types of the frame codec block (spec/00_scope.md R7, R8; spec/10_state.md R20, R28).
All numbers of the block are unsigned and bit 0 is the least significant bit (R8). -/

namespace Sys2Proof

/-- A byte, 8 bits (R8). -/
abbrev Byte := BitVec 8

/-- A value of the 32-bit register `LFSR` (`LFSR_W` = 32, R7, R21) and of the port fields `cmd_wdata`, `rsp_rdata` (R29, R30). -/
abbrev Word := BitVec 32

/-- A threshold, 17 bits (`THRESH_W` = 17, R7, R22, R23). -/
abbrev Threshold := BitVec 17

/-- One Bernoulli sample, 16 bits (`SAMPLE_W` = 16, R7, R133). -/
abbrev Sample := BitVec 16

/-- The command code `cmd_op`, 4 bits (R29, R70). -/
abbrev Opcode := BitVec 4

/-- A register index `cmd_reg`, 2 bits (R20, R29). -/
abbrev RegIndex := BitVec 2

/-- The width of a destination tag, the parameter `DEST_W` at its default (R7, D22; log entry 3). -/
abbrev destWidth : Nat := 48

/-- An opaque destination tag; the block never looks inside it (R28, R142). -/
abbrev Dest := BitVec destWidth

end Sys2Proof
end

