-- ==== Sys2Proof/Config.lean ====
section
/-! DEFINITION. The build parameters of the block (spec/00_scope.md R7, spec/92_eei_decisions.md "Open parameters")
and the one function the spec leaves uninterpreted. A build parameter is chosen when the block is built and never
changes: no step writes `State.config` (log entry 2). -/

namespace Sys2Proof

/-- The build parameter `INTEGRITY_MODE` (R7, R111; spec/93_implementation_defined.md I5). -/
inductive IntegrityMode where
  /-- The default: the marker of every frame is the constant `0x00` (R111). -/
  | status
  /-- Exclusive or of all content bytes (R111, R113). -/
  | xor8
  /-- Any other byte-valued function of the content, of which nothing is assumed (R111, D5; log entry 4). -/
  | uninterpreted
  deriving DecidableEq, Repr

/-- The integrity function of the mode `uninterpreted`: a function of the content bytes and nothing else is known of it
(R111: "A model should take `IntegrityFn` as a configuration function of which it assumes only that it is a function
of the content bytes"). It has no body that a proof can see. -/
opaque Config.uninterpretedIntegrityFn : List Byte → Byte

/-- What is fixed when the block is built. -/
structure Config where
  /-- `INTEGRITY_MODE` (R111). -/
  integrityMode : IntegrityMode
  /-- `BUFCAP`, the capacity in bytes of a byte-buffer operand (R7, R9, D12). -/
  bufCap : Nat
  deriving DecidableEq, Repr

/-- The least legal `BUFCAP`: the longest frame must fit (R7). -/
def Config.minBufCap : Nat := 65

/-- A build the spec admits: `BUFCAP` is at least 65 (R7, D12). -/
abbrev Config.Legal (c : Config) : Prop := Config.minBufCap ≤ c.bufCap

/-- The block as the spec describes it by default: `INTEGRITY_MODE` = `STATUS`, `BUFCAP` = 512 (R7). -/
def Config.standard : Config := { integrityMode := .status, bufCap := 512 }

/-- `MAX_PAYLOAD` (R7). -/
def Config.maxPayload : Nat := 63

/-- `MIN_FRAME`, and the length of every Acknowledgment, `ACK_BYTES` (R7, R60). -/
def Config.minFrame : Nat := 2

/-- `LFSR_RESET` (R7, R21). -/
def Config.lfsrReset : Word := 0xFFFFFFFF#32

/-- `T_MAX`, the largest legal threshold (R7, R22, R23). -/
def Config.thresholdMax : Threshold := 0x10000#17

/-- `STEPS_PER_SEND` (R7, R133). -/
def Config.stepsPerSend : Nat := 32

/-- The width of `cmd_blen`: enough bits for 0 to `BUFCAP`, 10 at the default 512 (R29, R215). -/
def Config.blenBits (c : Config) : Nat := Nat.log2 c.bufCap + 1

end Sys2Proof
end

