-- ==== Sys2Proof/Syntax.lean ====
section
/-! DEFINITION. The instructions of the block: one constructor per row of spec/opcode_table.json, the port that
presents them, and the value types the ports carry (spec/10_state.md R28, R29; spec/30_encoding.md R60, R61, R70, R71). -/

namespace Sys2Proof

/-- The kind of a frame, one bit: ACK = 0, DATA = 1 (R28). -/
inductive Kind where
  | ack
  | data
  deriving DecidableEq, Repr

/-- The sequence bit: Zero = 0, One = 1 (R28, R64). -/
inductive SeqBit where
  | zero
  | one
  deriving DecidableEq, Repr

/-- A frame value (R28, R74). -/
inductive Frame where
  | acknowledgment (number : SeqBit) (integrity : Byte)
  | dataUnit (number : SeqBit) (payload : List Byte) (integrity : Byte)
  deriving DecidableEq, Repr

/-- The instructions. An operand is a field of the command port that the command reads (R29, R70); `buf` is what the
port's `cmd_buf` carries, before it is cut to the length operand. The two last rows are the wire formats (R60, R61):
a frame handed to the block's decoder (log entry 6). -/
inductive Instr where
  /-- `0x0` (R160). -/
  | nop
  /-- `0x1` (R90). -/
  | encode (kind : Kind) (seq : SeqBit) (plen : Byte) (buf : List Byte) (integ : Byte)
  /-- `0x2` (R93). -/
  | decode (buf : List Byte) (blen : Nat)
  /-- `0x3` (R114). -/
  | compute (kind : Kind) (seq : SeqBit) (plen : Byte) (buf : List Byte)
  /-- `0x4` (R115). -/
  | verify (kind : Kind) (seq : SeqBit) (plen : Byte) (buf : List Byte) (integ : Byte)
  /-- `0x5` (R116). -/
  | toggle (seq : SeqBit)
  /-- `0x6` (R138). -/
  | send (buf : List Byte) (blen : Nat) (dest : Dest)
  /-- `0x7` (R161). -/
  | cfgwr (reg : RegIndex) (wdata : Word)
  /-- `0x8` (R165). -/
  | cfgrd (reg : RegIndex)
  /-- `0x9`, reserved (R71). -/
  | reserved9
  /-- `0xA`, reserved (R71). -/
  | reservedA
  /-- `0xB`, reserved (R71). -/
  | reservedB
  /-- `0xC`, reserved (R71). -/
  | reservedC
  /-- `0xD`, reserved (R71). -/
  | reservedD
  /-- `0xE`, reserved (R71). -/
  | reservedE
  /-- `0xF`, reserved (R71). -/
  | reservedF
  /-- Wire format ACK: header bits `0`, seq, six unused bits; then the marker (R60). -/
  | frameAck (seq : SeqBit) (unused : BitVec 6) (integ : Byte)
  /-- Wire format DATA: header bits `1`, seq, length; the payload; the marker (R61). -/
  | frameData (seq : SeqBit) (payload : List Byte) (integ : Byte)
  deriving DecidableEq, Repr

/-- The fields of the command port while a command is presented (R29). `buf` lists the bytes on `cmd_buf` from index 0;
the wires of `cmd_buf` past the end of the list carry `0x00` (log entry 5). -/
structure CmdPort where
  op : Opcode
  kind : Kind := .ack
  seq : SeqBit := .zero
  plen : Byte := 0
  integ : Byte := 0
  buf : List Byte := []
  blen : Nat := 0
  dest : Dest := 0
  reg : RegIndex := 0
  wdata : Word := 0
  deriving DecidableEq, Repr

/-- What the world outside the block does to it in one step (R5, R24, R29, R32). -/
inductive HostInput where
  /-- `rst` = 0, `cmd_valid` = 0: nothing is presented. -/
  | idle
  /-- `rst` = 0, `cmd_valid` = 1: a command is presented (R29). -/
  | command (port : CmdPort)
  /-- `rst` = 0: a host hands a received datagram, unaltered, to the block's decoder (R31, R189, R193; log entry 6). -/
  | datagram (bytes : List Byte)
  /-- `rst` = 1, perhaps while a command is presented or in progress (R32, R242). -/
  | reset (inProgress : Option CmdPort)
  deriving DecidableEq, Repr

end Sys2Proof
end

