-- ==== Sys2Proof/WellFormed.lean ====
section
/-! DEFINITION. Which instructions, ports and frames the spec's fields can carry (spec/10_state.md R28, R29;
spec/30_encoding.md R61). -/

namespace Sys2Proof

/-- A frame is well formed when it is an Acknowledgment, or a DataUnit of at most 63 payload bytes (R28). -/
def Frame.wellFormed : Frame → Bool
  | .acknowledgment _ _ => true
  | .dataUnit _ payload _ => decide (payload.length ≤ Config.maxPayload)

/-- `cmd_buf` is `BUFCAP` bytes wide (R29). -/
def bufFits (c : Config) (buf : List Byte) : Bool := decide (buf.length ≤ c.bufCap)

/-- `cmd_blen` has the bits of `Config.blenBits` (R29, R215). -/
def blenFits (c : Config) (blen : Nat) : Bool := decide (blen < 2 ^ c.blenBits)

/-- The operands fit the port fields that carry them, and a DATA frame's payload fits its length field. A payload length
of 64 to 255 and a buffer length above `BUFCAP` are well formed: the port can present them, and the command answers
them with an error status (R91, R215). -/
def Instr.wellFormed (c : Config) : Instr → Bool
  | .nop => true
  | .encode _ _ _ buf _ => bufFits c buf
  | .decode buf blen => bufFits c buf && blenFits c blen
  | .compute _ _ _ buf => bufFits c buf
  | .verify _ _ _ buf _ => bufFits c buf
  | .toggle _ => true
  | .send buf blen _ => bufFits c buf && blenFits c blen
  | .cfgwr _ _ => true
  | .cfgrd _ => true
  | .reserved9 => true
  | .reservedA => true
  | .reservedB => true
  | .reservedC => true
  | .reservedD => true
  | .reservedE => true
  | .reservedF => true
  | .frameAck _ _ _ => true
  | .frameData _ payload _ => decide (payload.length ≤ Config.maxPayload)

/-- A command port whose fields fit their wires (R29). -/
def CmdPort.wellFormed (c : Config) (p : CmdPort) : Bool := bufFits c p.buf && blenFits c p.blen

end Sys2Proof
end

