-- ==== Sys2Proof/Decode.lean ====
section
/-! DEFINITION. Decoding and encoding (spec/30_encoding.md): the header byte of a wire frame (R62, R63, R67), the two
frame formats (R60, R61), the command codes (R70, R71), the decoder from what a host presents to an instruction, and
after it the encoder. -/

namespace Sys2Proof

/-! ## The header byte -/

/-- The discriminator bit of a kind: 1 = DataUnit, 0 = Acknowledgment (R28, R62). -/
def Kind.bit : Kind → Bool
  | .ack => false
  | .data => true

/-- The kind a discriminator bit names (R62, R63). -/
def Kind.ofBit : Bool → Kind
  | false => .ack
  | true => .data

/-- The sequence bit on the wire and on the ports: Zero is 0, One is 1 (R28, R64). -/
def SeqBit.bit : SeqBit → Bool
  | .zero => false
  | .one => true

/-- The sequence bit a wire bit names (R63, R64). -/
def SeqBit.ofBit : Bool → SeqBit
  | false => .zero
  | true => .one

/-- A header byte from its three fields, most significant first: discriminator, sequence bit, six low bits (R62). -/
def packHeader (kind : Kind) (seq : SeqBit) (low : BitVec 6) : Byte :=
  BitVec.cons kind.bit (BitVec.cons seq.bit low)

/-- `h[7]` (R63). -/
def headerKind (h : Byte) : Kind := Kind.ofBit (h.getLsbD 7)

/-- `h[6]` (R63). -/
def headerSeq (h : Byte) : SeqBit := SeqBit.ofBit (h.getLsbD 6)

/-- `h[5:0]`: the payload length of a DATA header, the unused bits of an ACK header (R60, R61, R63). -/
def headerLow (h : Byte) : BitVec 6 := h.extractLsb' 0 6

/-- The length of a frame in bytes, from its header alone (R66). -/
def frameLength (h : Byte) : Nat :=
  match headerKind h with
  | .ack => 2
  | .data => (headerLow h).toNat + 2

/-- `Header(kind, seq, n)`: the header byte ENCODE writes; the six unused bits of an ACK are zero (R62). -/
def header (kind : Kind) (seq : SeqBit) (n : Nat) : Byte :=
  match kind with
  | .ack => packHeader .ack seq 0
  | .data => packHeader .data seq (BitVec.ofNat 6 n)

/-! ## The frame decoder -/

/-- Why bytes are no frame. The source has one reason (R94, R211). -/
inductive DecodeError where
  /-- The buffer is shorter than the length implied by the header (R94). -/
  | frameTruncated
  deriving DecidableEq, Repr

/-- `decode(bytes) -> Frame`, with the number of bytes the frame occupied (R93 to R95). Total; it rejects only what is
shorter than its frame, and it ignores the bytes after the frame. -/
def parseFrame : List Byte → Except DecodeError (Frame × Nat)
  | [] => .error .frameTruncated
  | [_] => .error .frameTruncated
  | h :: second :: rest =>
    match headerKind h with
    | .ack => .ok (.acknowledgment (headerSeq h) second, 2)
    | .data =>
      let n := (headerLow h).toNat
      let body := second :: rest
      if n + 1 ≤ body.length then
        .ok (.dataUnit (headerSeq h) (body.take n) (body.getD n 0), n + 2)
      else .error .frameTruncated

/-- The bytes of a frame as ENCODE writes them (R60, R61, R62). For a payload above 63 bytes there is no such frame;
ENCODE refuses it before this is used (R91). -/
def frameBytes : Frame → List Byte
  | .acknowledgment number integrity => [header .ack number 0, integrity]
  | .dataUnit number payload integrity =>
    header .data number payload.length :: (payload ++ [integrity])

/-! ## The decoder -/

/-- The instruction a presented command is: `cmd_op` selects it, and it takes the port fields that command reads and no
other (R29, R70, R71). -/
def decodeCommand (p : CmdPort) : Instr :=
  match p.op.toNat with
  | 0 => .nop
  | 1 => .encode p.kind p.seq p.plen p.buf p.integ
  | 2 => .decode p.buf p.blen
  | 3 => .compute p.kind p.seq p.plen p.buf
  | 4 => .verify p.kind p.seq p.plen p.buf p.integ
  | 5 => .toggle p.seq
  | 6 => .send p.buf p.blen p.dest
  | 7 => .cfgwr p.reg p.wdata
  | 8 => .cfgrd p.reg
  | 9 => .reserved9
  | 10 => .reservedA
  | 11 => .reservedB
  | 12 => .reservedC
  | 13 => .reservedD
  | 14 => .reservedE
  | _ => .reservedF

/-- The frame row that bytes are: exactly one frame of format ACK or DATA, nothing after it (R60, R61, R67). Bytes that
are shorter are rejected by name; longer ones are not one frame and give `none`. -/
def decodeFrameRow (bytes : List Byte) : Except DecodeError (Option Instr) :=
  match parseFrame bytes with
  | .error e => .error e
  | .ok (f, used) =>
    if used = bytes.length then
      match f with
      | .acknowledgment number integrity =>
        .ok (some (.frameAck number (headerLow (bytes.headD 0)) integrity))
      | .dataUnit number payload integrity => .ok (some (.frameData number payload integrity))
    else .ok none

/-- The instruction a datagram is when a host hands it to the block's decoder: its frame row, or, where it is not
exactly one frame, DECODE on its bytes (R31, R193; log entry 6). -/
def decodeDatagram (bytes : List Byte) : Instr :=
  match decodeFrameRow bytes with
  | .ok (some i) => i
  | .ok none => .decode bytes bytes.length
  | .error .frameTruncated => .decode bytes bytes.length

/-- The instruction an input presents, if it presents one. -/
def decodeInput : HostInput → Option Instr
  | .idle => none
  | .command p => some (decodeCommand p)
  | .datagram bytes => some (decodeDatagram bytes)
  | .reset _ => none

/-! ## Words of the opcode table -/

/-- Byte `k` of a word of the opcode table, byte 0 the lowest (R42: the first byte on the wire is index 0). -/
def tableByte (w k : Nat) : Byte := BitVec.ofNat 8 (w >>> (8 * k))

/-- What a host presents for a word of the opcode table: a word of at most 8 bits and below 16 is a command code, with
every other port field zero; any other word is the start of a wire frame, with zeros up to the length its header
implies (log entry 6: `0x00` to `0x0F` are command codes here although they are also ACK headers). -/
def HostInput.ofTableWord (nbits w : Nat) : HostInput :=
  let v := w % 2 ^ nbits
  if nbits ≤ 8 ∧ v < 16 then .command { op := BitVec.ofNat 4 v }
  else .datagram ((List.range (frameLength (tableByte v 0))).map (tableByte v))

/-- The instruction the decoder reads from a word of the opcode table. -/
def decodeTableWord (nbits w : Nat) : Option Instr := decodeInput (HostInput.ofTableWord nbits w)

/-! ## The encoder -/

/-- The bytes of a frame row, the six unused bits of an ACK header included (R60, R61). -/
def ackBytes (seq : SeqBit) (unused : BitVec 6) (integ : Byte) : List Byte :=
  [packHeader .ack seq unused, integ]

/-- The bytes of a DATA frame (R61). -/
def dataBytes (seq : SeqBit) (payload : List Byte) (integ : Byte) : List Byte :=
  frameBytes (.dataUnit seq payload integ)

/-- How a host presents an instruction: the command port with that command's code and operands and every field it does
not read at zero (R29, R70), or the frame's bytes (R60, R61). A reserved code is presented with zero operands. -/
def encodeInput : Instr → HostInput
  | .nop => .command { op := 0x0 }
  | .encode kind seq plen buf integ => .command { op := 0x1, kind, seq, plen, buf, integ }
  | .decode buf blen => .command { op := 0x2, buf, blen }
  | .compute kind seq plen buf => .command { op := 0x3, kind, seq, plen, buf }
  | .verify kind seq plen buf integ => .command { op := 0x4, kind, seq, plen, buf, integ }
  | .toggle seq => .command { op := 0x5, seq }
  | .send buf blen dest => .command { op := 0x6, buf, blen, dest }
  | .cfgwr reg wdata => .command { op := 0x7, reg, wdata }
  | .cfgrd reg => .command { op := 0x8, reg }
  | .reserved9 => .command { op := 0x9 }
  | .reservedA => .command { op := 0xA }
  | .reservedB => .command { op := 0xB }
  | .reservedC => .command { op := 0xC }
  | .reservedD => .command { op := 0xD }
  | .reservedE => .command { op := 0xE }
  | .reservedF => .command { op := 0xF }
  | .frameAck seq unused integ => .datagram (ackBytes seq unused integ)
  | .frameData seq payload integ => .datagram (dataBytes seq payload integ)

end Sys2Proof
end

