-- ==== Sys2Proof/Machine/State.lean ====
section
/-! DEFINITION. The state of the block and of its ports (spec/10_state.md R20 to R34, spec/60_exceptions.md R210). The
block proper has three registers and nothing else persists (R20); beside them stand the output ports as the last step
left them, the inputs still to come, and the build parameters. -/

namespace Sys2Proof.Machine

/-- The status of a response (R210). Codes 6 and 7 are never driven, so they have no constructor (I16). -/
inductive Status where
  /-- 0: the command did what its rule says. -/
  | ok
  /-- 1: DECODE, the buffer is shorter than its frame (R211). -/
  | frameTruncated
  /-- 2: ENCODE, COMPUTE, VERIFY, a DATA payload above 63 bytes (R213). -/
  | lengthConstraint
  /-- 3: a reserved command code (R214). -/
  | illegalOp
  /-- 4: CFGWR, CFGRD, register index 3 (R214). -/
  | illegalReg
  /-- 5: DECODE, SEND, `cmd_blen` above `BUFCAP` (R215). -/
  | illegalLen
  deriving DecidableEq, Repr

/-- One response: the status and the fields the command drives (R30); `none` is a field this response does not drive
(R10: "its other response fields carry no information"; log entry 7). `rsp_blen` is the length of `buf`. -/
structure Response where
  status : Status
  buf : Option (List Byte) := none
  kind : Option Kind := none
  seq : Option SeqBit := none
  plen : Option (BitVec 6) := none
  integ : Option Byte := none
  used : Option (BitVec 7) := none
  bool : Option Bool := none
  rdata : Option Word := none
  deriving DecidableEq, Repr

/-- The response port as wires (R30). `valid` is `rsp_valid`, `status` the code of R210. -/
structure ResponseWires where
  valid : Bool
  status : BitVec 3
  buf : List Byte
  kind : Bool
  seq : Bool
  plen : BitVec 6
  integ : Byte
  used : BitVec 7
  bool : Bool
  rdata : Word
  deriving DecidableEq, Repr

/-- One link transaction `LinkEmit(bytes, dest)`; `tx_len` is the length of `bytes` (R31). -/
structure LinkTx where
  bytes : List Byte
  dest : Dest
  deriving DecidableEq, Repr

/-- The reasons the machine stops with a fault: there are none. An error is a status in a response and changes nothing
(R217), and every command presented gets its response (R225). -/
inductive Fault
  deriving DecidableEq, Repr

/-- The reasons the machine refuses. -/
inductive Refusal where
  /-- Raised by an arm of `exec` whose instruction has no meaning yet; no arm is left that does. Safe: the machine stops. -/
  | notModelled (mnemonic : String)
  deriving DecidableEq, Repr

/-- The state. -/
structure State where
  /-- The build parameters; no step changes them (R7; log entry 2). -/
  config : Config
  /-- Register 0, `CORRUPT_T` (R20, R22). -/
  corruptT : Threshold
  /-- Register 1, `DROP_T` (R20, R23). -/
  dropT : Threshold
  /-- Register 2, `LFSR` (R20, R21). -/
  lfsr : Word
  /-- The response port: the response of the last step, `none` when it gave none (`rsp_valid` = 0) (R30). -/
  rsp : Option Response
  /-- The link port: the transaction of the last step, `none` when it made none (`tx_valid` = 0) (R31). -/
  tx : Option LinkTx
  /-- What the outside world will do to the block, the next step's input first (R24, R29, R32, R49; log entry 1). -/
  inputs : List HostInput
  deriving DecidableEq, Repr

/-- The outcome of a step of the block. -/
abbrev Result := Host.Outcome State Fault Refusal

/-- The block right after reset (R34, R240): the three registers at their reset values, nothing driven, nothing yet
presented (R241), and the default build (R7). -/
def State.reset : State where
  config := Config.standard
  corruptT := 0x00000#17
  dropT := 0x00000#17
  lfsr := Config.lfsrReset
  rsp := none
  tx := none
  inputs := []

end Sys2Proof.Machine
end

