-- ==== Sys2Proof/Machine/Operands.lean ====
section
/-! DEFINITION. The operand forms: byte-buffer operands and slices (spec/00_scope.md R9, spec/20_memory.md R40 to R47), the
frame an instruction's operands name (spec/40_codec.md R90), its content (spec/41_integrity_sequence.md R110), and the
register operands (spec/20_memory.md R43). -/

namespace Sys2Proof.Machine

/-- `buf[0 ..< n]` of the bytes on `cmd_buf`; a wire past the listed bytes carries `0x00` (R9, R29; log entry 5). -/
def takeBytes : Nat → List Byte → List Byte
  | 0, _ => []
  | n + 1, [] => 0 :: takeBytes n []
  | n + 1, b :: bs => b :: takeBytes n bs

/-- The frame that ENCODE's operands are: an Acknowledgment ignores `cmd_plen` and `cmd_buf` (R90). -/
def operandFrame (kind : Kind) (seq : SeqBit) (plen : Byte) (buf : List Byte) (integ : Byte) : Frame :=
  match kind with
  | .ack => .acknowledgment seq integ
  | .data => .dataUnit seq (takeBytes plen.toNat buf) integ

/-- `Content(kind, seq, payload)`: the header byte followed by the payload bytes (R110). -/
def content (kind : Kind) (seq : SeqBit) (payload : List Byte) : List Byte :=
  match kind with
  | .ack => [header .ack seq 0]
  | .data => header .data seq payload.length :: payload

/-- The content that COMPUTE's and VERIFY's operands name (R114, R115). -/
def operandContent (kind : Kind) (seq : SeqBit) (plen : Byte) (buf : List Byte) : List Byte :=
  content kind seq (takeBytes plen.toNat buf)

/-- The bytes with bit `b` of the last one inverted; the empty sequence has no byte to change (R136). -/
def flipLastBit (b : Nat) : List Byte → List Byte
  | [] => []
  | [x] => [x ^^^ (1#8 <<< b)]
  | x :: y :: rest => x :: flipLastBit b (y :: rest)

/-- `Clamp17(w)`: a value above `0x10000` becomes `0x10000` (R162). -/
def clamp17 (w : Word) : Threshold :=
  if 0x00010000#32 < w then Config.thresholdMax else w.setWidth 17

/-- The value a seed write loads: zero becomes the reset value (R163). -/
def seedValue (w : Word) : Word :=
  if w = 0x00000000#32 then Config.lfsrReset else w

end Sys2Proof.Machine
end

