-- ==== Sys2Proof/Machine/Flags.lean ====
section
/-! DEFINITION. The block has no flags (spec/10_state.md R26). What stands in their place is the status of a response: its
code and the checks that decide it (spec/60_exceptions.md R210 to R216). -/

namespace Sys2Proof.Machine

/-- The code of a status on `rsp_status` (R210). -/
def Status.code : Status → BitVec 3
  | .ok => 0
  | .frameTruncated => 1
  | .lengthConstraint => 2
  | .illegalOp => 3
  | .illegalReg => 4
  | .illegalLen => 5

/-- The check of ENCODE, COMPUTE and VERIFY: a DATA frame with a payload above 63 bytes (R213). -/
def payloadTooLong (kind : Kind) (plen : Byte) : Bool :=
  match kind with
  | .ack => false
  | .data => decide (Config.maxPayload < plen.toNat)

/-- The check of DECODE and SEND, made before their own: `cmd_blen` above `BUFCAP` (R215, R216). -/
def lengthIllegal (c : Config) (blen : Nat) : Bool := decide (c.bufCap < blen)

/-- The status that names a decoder's rejection (R94, R211). -/
def statusOfDecodeError : DecodeError → Status
  | .frameTruncated => .frameTruncated

end Sys2Proof.Machine
end

