-- ==== Sys2Proof/Machine/Lfsr.lean ====
section
/-! DEFINITION. The pseudo-random source and the Bernoulli events of SEND (spec/42_udt.md R130 to R136). -/

namespace Sys2Proof.Machine

/-- The feedback bit `s[0] ^ s[10] ^ s[30] ^ s[31]` (R131). -/
def lfsrFeedback (s : Word) : Bool :=
  (s.getLsbD 0 ^^ s.getLsbD 10) ^^ (s.getLsbD 30 ^^ s.getLsbD 31)

/-- `Step(s)`: the feedback above `s[31:1]` (R131). -/
def lfsrStep (s : Word) : Word := BitVec.cons (lfsrFeedback s) (s.extractLsb' 1 31)

/-- `Step^k(s)` (R131). -/
def lfsrSteps : Nat → Word → Word
  | 0, s => s
  | k + 1, s => lfsrSteps k (lfsrStep s)

/-- `r_c = LFSR[15:0]` (R133). -/
def corruptSample (s : Word) : Sample := s.extractLsb' 0 16

/-- `r_d = LFSR[31:16]` (R133). -/
def dropSample (s : Word) : Sample := s.extractLsb' 16 16

/-- A sample fires when it is below the threshold, both of 17 bits, unsigned (R134). -/
def fires (r : Sample) (t : Threshold) : Bool := decide (r.setWidth 17 < t)

/-- `b = r_c[2:0]`, the number of the bit a corruption inverts (R136). -/
def corruptBit (r : Sample) : Nat := (r.extractLsb' 0 3).toNat

/-- The corruption event of a SEND that starts in `s` (R134). -/
def State.corruptFires (s : State) : Bool := fires (corruptSample s.lfsr) s.corruptT

/-- The drop event of a SEND that starts in `s` (R134). -/
def State.dropFires (s : State) : Bool := fires (dropSample s.lfsr) s.dropT

end Sys2Proof.Machine
end

