-- ==== Sys2Proof/Machine/Ops.lean ====
section
/-! DEFINITION. The named operations the meanings share: ending with a response or with an error (spec/00_scope.md R10,
spec/60_exceptions.md R210, R217), the register accesses (spec/43_config.md R161 to R165), reset (spec/10_state.md R32, R34), the
link port (R31), and taking the next input (R29, R32). -/

namespace Sys2Proof.Machine

/-! ## Ending a command -/

/-- The state with both output ports as given: exactly one response, at most one link transaction (R30, R31). -/
def State.drive (s : State) (r : Option Response) (t : Option LinkTx) : State := { s with rsp := r, tx := t }

/-- `return OK(...)` with no link transaction (R10). -/
def finish (r : Response) (s : State) : Result := .next (s.drive (some r) none)

/-- `raise <Error>`: the error path of every command. The response carries the status alone; no register is written,
`LFSR` does not advance, no link transaction is made (R10, R210). There is no trap: nothing is saved and control goes
nowhere (R217), and there is nothing to return from (R218). -/
def raise (e : Status) (s : State) : Result := .next (s.drive (some { status := e }) none)

/-- The end of a command with a reserved code (R71, R214). -/
def illegalOp (s : State) : Result := raise .illegalOp s

/-! ## The response port as wires -/

/-- `rsp_*` as wires (R30). A driven field shows its value. A field that is not driven shows zero on an error status
("hardware drives zeros", R30, R210); with status `OK` the spec gives it no value, and it shows whatever `undriven`
has there, about which nothing is assumed (log entry 7). -/
def Response.wires (undriven : ResponseWires) (r : Response) : ResponseWires :=
  let rest : ResponseWires :=
    if r.status = .ok then undriven
    else
      { valid := true, status := 0, buf := [], kind := false, seq := false, plen := 0, integ := 0, used := 0,
        bool := false, rdata := 0 }
  { valid := true
    status := r.status.code
    buf := r.buf.getD rest.buf
    kind := (r.kind.map Kind.bit).getD rest.kind
    seq := (r.seq.map SeqBit.bit).getD rest.seq
    plen := r.plen.getD rest.plen
    integ := r.integ.getD rest.integ
    used := r.used.getD rest.used
    bool := r.bool.getD rest.bool
    rdata := r.rdata.getD rest.rdata }

/-! ## The frame decoder's answer -/

/-- The fields DECODE drives for a frame that occupied `used` bytes (R93). -/
def decodeResponse (f : Frame) (used : Nat) : Response :=
  match f with
  | .acknowledgment number integrity =>
    { status := .ok, buf := some [], kind := some .ack, seq := some number, plen := some 0,
      integ := some integrity, used := some (BitVec.ofNat 7 used) }
  | .dataUnit number payload integrity =>
    { status := .ok, buf := some payload, kind := some .data, seq := some number,
      plen := some (BitVec.ofNat 6 payload.length), integ := some integrity, used := some (BitVec.ofNat 7 used) }

/-- The whole of DECODE on `cmd_buf` and `cmd_blen`: the length check, then the frame decoder (R93, R215, R216). -/
def decodeBuffer (buf : List Byte) (blen : Nat) (s : State) : Result :=
  if lengthIllegal s.config blen then raise .illegalLen s
  else
    match parseFrame (takeBytes blen buf) with
    | .error e => raise (statusOfDecodeError e) s
    | .ok (f, used) => finish (decodeResponse f used) s

/-! ## The integrity function -/

/-- Exclusive or of all bytes, starting from `0x00` (R113). -/
def xorBytes (c : List Byte) : Byte := c.foldl (· ^^^ ·) 0x00#8

/-- `IntegrityFn` of the configured mode (R111). -/
def integrityFn (c : Config) (bytes : List Byte) : Byte :=
  match c.integrityMode with
  | .status => 0x00#8
  | .xor8 => xorBytes bytes
  | .uninterpreted => Config.uninterpretedIntegrityFn bytes

/-! ## Registers -/

/-- The register at an index as a 32-bit word; index 3 is reserved (R20, R43, R164, R165). -/
def readRegister (reg : RegIndex) (s : State) : Option Word :=
  match reg.toNat with
  | 0 => some (s.corruptT.setWidth 32)
  | 1 => some (s.dropT.setWidth 32)
  | 2 => some s.lfsr
  | _ => none

/-- The state after a write to the register at an index; index 3 is reserved (R161 to R164). -/
def writeRegister (reg : RegIndex) (w : Word) (s : State) : Option State :=
  match reg.toNat with
  | 0 => some { s with corruptT := clamp17 w }
  | 1 => some { s with dropT := clamp17 w }
  | 2 => some { s with lfsr := seedValue w }
  | _ => none

/-- `LFSR <- Step^32(LFSR)`, the advance of one SEND (R133). -/
def State.advanceLfsr (s : State) : State := { s with lfsr := lfsrSteps Config.stepsPerSend s.lfsr }

/-- What `rst` does: the three registers take their reset values, and there is no response and no link transaction,
whatever was presented or in progress (R32, R34, R242). -/
def State.resetRegisters (s : State) : State :=
  { s with
    corruptT := State.reset.corruptT, dropT := State.reset.dropT, lfsr := State.reset.lfsr, rsp := none, tx := none }

/-! ## Taking the next input -/

/-- `rst` in the coming step (R32). -/
def State.rstAsserted (s : State) : Bool :=
  match s.inputs with
  | .reset _ :: _ => true
  | _ => false

/-- `cmd_valid` in the coming step (R29). -/
def State.cmdValid (s : State) : Bool :=
  match s.inputs with
  | .command _ :: _ => true
  | .datagram _ :: _ => true
  | .reset (some _) :: _ => true
  | _ => false

/-- `cmd_ready` in the coming step: a step performs a whole command, so between steps only `rst` keeps the block from
taking one (R5, R29, R32). -/
def State.cmdReady (s : State) : Bool := !s.rstAsserted

/-- What a step finds at the ports. -/
inductive Fetched where
  /-- No command is taken; the step ends in `s`. -/
  | quiet (s : State)
  /-- A command is taken: `i` is performed in `s`. -/
  | issue (i : Instr) (s : State)
  deriving DecidableEq, Repr

/-- Take the next input (R29, R32, R224). With nothing presented the block is idle: its registers hold and it drives
neither port. -/
def fetch (s : State) : Fetched :=
  match s.inputs with
  | [] => .quiet (s.drive none none)
  | inp :: rest =>
    let s' := { s with inputs := rest }
    match inp with
    | .reset _ => .quiet s'.resetRegisters
    | .idle => .quiet (s'.drive none none)
    | .command p => .issue (decodeCommand p) s'
    | .datagram bytes => .issue (decodeDatagram bytes) s'

end Sys2Proof.Machine
end

