-- ==== Sys2Proof/Machine/Codec.lean ====
section
/-! DEFINITION. The frame codec: ENCODE, DECODE and the two wire formats (spec/40_codec.md R90 to R99; spec/30_encoding.md R60,
R61). All are pure: no register is read or written and no link transaction is made (R6, R33). -/

namespace Sys2Proof.Machine

/-- ENCODE (R90, R91, R92): the frame's bytes, or `LENGTH_CONSTRAINT`. The marker is written as given (R99). -/
def execEncode (kind : Kind) (seq : SeqBit) (plen : Byte) (buf : List Byte) (integ : Byte) (s : State) : Result :=
  if payloadTooLong kind plen then raise .lengthConstraint s
  else finish { status := .ok, buf := some (frameBytes (operandFrame kind seq plen buf integ)) } s

/-- DECODE (R93, R94, R95). The marker is returned as found and not checked (R99). -/
def execDecode (buf : List Byte) (blen : Nat) (s : State) : Result := decodeBuffer buf blen s

/-- A frame of format ACK handed to the decoder: DECODE's answer on its two bytes (R60, R93; log entry 6). -/
def execFrameAck (seq : SeqBit) (unused : BitVec 6) (integ : Byte) (s : State) : Result :=
  decodeBuffer (ackBytes seq unused integ) (ackBytes seq unused integ).length s

/-- A frame of format DATA handed to the decoder: DECODE's answer on its bytes (R61, R93; log entry 6). -/
def execFrameData (seq : SeqBit) (payload : List Byte) (integ : Byte) (s : State) : Result :=
  decodeBuffer (dataBytes seq payload integ) (dataBytes seq payload integ).length s

end Sys2Proof.Machine
end

