-- ==== Sys2Proof/Machine/Configuration.lean ====
section
/-! DEFINITION. NOP, CFGWR and CFGRD (spec/43_config.md R160 to R166). -/

namespace Sys2Proof.Machine

/-- NOP (R160). -/
def execNop (s : State) : Result := finish { status := .ok } s

/-- CFGWR (R161): one register is written; index 3 is `ILLEGAL_REG` and writes nothing (R164). -/
def execCfgwr (reg : RegIndex) (wdata : Word) (s : State) : Result :=
  match writeRegister reg wdata s with
  | some t => finish { status := .ok } t
  | none => raise .illegalReg s

/-- CFGRD (R165): one register is read; index 3 is `ILLEGAL_REG` and gives no data (R164). -/
def execCfgrd (reg : RegIndex) (s : State) : Result :=
  match readRegister reg s with
  | some w => finish { status := .ok, rdata := some w } s
  | none => raise .illegalReg s

end Sys2Proof.Machine
end

