-- ==== Sys2Proof/Machine/Integrity.lean ====
section
/-! DEFINITION. COMPUTE, VERIFY and TOGGLE (spec/41_integrity_sequence.md R110 to R119). All are pure (R6, R33). -/

namespace Sys2Proof.Machine

/-- COMPUTE (R114): the marker of the frame the operands name. -/
def execCompute (kind : Kind) (seq : SeqBit) (plen : Byte) (buf : List Byte) (s : State) : Result :=
  if payloadTooLong kind plen then raise .lengthConstraint s
  else finish { status := .ok, integ := some (integrityFn s.config (operandContent kind seq plen buf)) } s

/-- VERIFY (R115): whether the marker is the frame's. A mismatch is no error (R212). -/
def execVerify (kind : Kind) (seq : SeqBit) (plen : Byte) (buf : List Byte) (integ : Byte) (s : State) : Result :=
  if payloadTooLong kind plen then raise .lengthConstraint s
  else
    finish { status := .ok, bool := some (decide (integ = integrityFn s.config (operandContent kind seq plen buf))) } s

/-- `toggle`: Zero to One, One to Zero (R116). -/
def toggleBit : SeqBit → SeqBit
  | .zero => .one
  | .one => .zero

/-- TOGGLE (R116). -/
def execToggle (seq : SeqBit) (s : State) : Result := finish { status := .ok, seq := some (toggleBit seq) } s

end Sys2Proof.Machine
end

