-- ==== Sys2Proof/Machine/Reserved.lean ====
section
/-! DEFINITION. The seven reserved command codes (spec/30_encoding.md R71; spec/60_exceptions.md R214): each ends with status
`ILLEGAL_OP` and changes nothing. -/

namespace Sys2Proof.Machine

/-- Code `0x9` (R71). -/
def execReserved9 (s : State) : Result := illegalOp s

/-- Code `0xA` (R71). -/
def execReservedA (s : State) : Result := illegalOp s

/-- Code `0xB` (R71). -/
def execReservedB (s : State) : Result := illegalOp s

/-- Code `0xC` (R71). -/
def execReservedC (s : State) : Result := illegalOp s

/-- Code `0xD` (R71). -/
def execReservedD (s : State) : Result := illegalOp s

/-- Code `0xE` (R71). -/
def execReservedE (s : State) : Result := illegalOp s

/-- Code `0xF` (R71). -/
def execReservedF (s : State) : Result := illegalOp s

end Sys2Proof.Machine
end

