-- ==== Sys2Proof/Machine/Udt.lean ====
section
/-! DEFINITION. SEND, the fault injector (spec/42_udt.md R133 to R143). -/

namespace Sys2Proof.Machine

/-- The bytes SEND would hand to the link: one bit of the last byte inverted when the corruption event fires (R136). -/
def State.outgoing (s : State) (bytes : List Byte) : List Byte :=
  if s.corruptFires then flipLastBit (corruptBit (corruptSample s.lfsr)) bytes else bytes

/-- What a SEND of `bytes` to `dest` that starts in `s` puts on the link: nothing when the drop event fires (R137), else the bytes
as the corruption event leaves them, the destination unchanged (R136, R142). -/
def State.emitted (s : State) (bytes : List Byte) (dest : Dest) : Option LinkTx :=
  if s.dropFires then none else some { bytes := s.outgoing bytes, dest }

/-- SEND (R138): both samples are taken and `LFSR` advances on every SEND that is not refused (R139); the
response is `OK` in all four outcomes and tells nothing (R141). -/
def execSend (buf : List Byte) (blen : Nat) (dest : Dest) (s : State) : Result :=
  if lengthIllegal s.config blen then raise .illegalLen s
  else .next (s.advanceLfsr.drive (some { status := .ok }) (s.emitted (takeBytes blen buf) dest))

end Sys2Proof.Machine
end

