-- ==== Sys2Proof/Machine/Dispatch.lean ====
section
/-! DEFINITION. One arm per instruction: the meaning of each row of spec/opcode_table.json. -/

namespace Sys2Proof.Machine

def exec (i : Instr) (s : State) : Host.Outcome State Fault Refusal :=
  match i with
  | .nop => Sys2Proof.Machine.execNop s
  | .encode kind seq plen buf integ => Sys2Proof.Machine.execEncode kind seq plen buf integ s
  | .decode buf blen => Sys2Proof.Machine.execDecode buf blen s
  | .compute kind seq plen buf => Sys2Proof.Machine.execCompute kind seq plen buf s
  | .verify kind seq plen buf integ => Sys2Proof.Machine.execVerify kind seq plen buf integ s
  | .toggle seq => Sys2Proof.Machine.execToggle seq s
  | .send buf blen dest => Sys2Proof.Machine.execSend buf blen dest s
  | .cfgwr reg wdata => Sys2Proof.Machine.execCfgwr reg wdata s
  | .cfgrd reg => Sys2Proof.Machine.execCfgrd reg s
  | .reserved9 => Sys2Proof.Machine.execReserved9 s
  | .reservedA => Sys2Proof.Machine.execReservedA s
  | .reservedB => Sys2Proof.Machine.execReservedB s
  | .reservedC => Sys2Proof.Machine.execReservedC s
  | .reservedD => Sys2Proof.Machine.execReservedD s
  | .reservedE => Sys2Proof.Machine.execReservedE s
  | .reservedF => Sys2Proof.Machine.execReservedF s
  | .frameAck seq unused integ => Sys2Proof.Machine.execFrameAck seq unused integ s
  | .frameData seq payload integ => Sys2Proof.Machine.execFrameData seq payload integ s

end Sys2Proof.Machine
end

