-- ==== Sys2Proof/Machine/Step.lean ====
section
/-! DEFINITION. One step: take the next input and, when it presents a command, perform that command whole (spec/00_scope.md
R5, spec/20_memory.md R49, R50). -/

namespace Sys2Proof.Machine

/-- One step of the block. -/
def step (s : State) : Host.Outcome State Fault Refusal :=
  match fetch s with
  | .quiet t => .next t
  | .issue i t => exec i t

/-- The state in which the very next step takes the command, or the frame, of a word of the opcode table: it is the next
input, ahead of those already there. -/
def State.withFetchWord (s : State) (nbits w : Nat) : State :=
  { s with inputs := HostInput.ofTableWord nbits w :: s.inputs }

end Sys2Proof.Machine
end

