-- ==== Sys2Proof/Machine/Port.lean ====
section
/-! DEFINITION. How a host drives a block (spec/44_environment_arq.md R193): one command, one response; and the pseudo-commands
SEAL and OPEN, which are notation for two commands each (spec/30_encoding.md R73). This file and Sender, Receiver and
System model the environment; the block is whole without them. -/

namespace Sys2Proof.Machine

/-- A host, or the outside world, does one thing to a block, and the block takes one step. The block's own later inputs
stay as they are. A step that stops would leave the block as it was; none does. -/
def State.feed (inp : HostInput) (b : State) : State :=
  match step { b with inputs := inp :: b.inputs } with
  | .next t => t
  | .fault _ => b
  | .refused _ => b

/-- A host presents one command and takes its response (R30, R193). -/
def State.issue (i : Instr) (b : State) : State := b.feed (encodeInput i)

/-- The length of a payload as `cmd_plen` carries it (R29). -/
def plenOf (payload : List Byte) : Byte := BitVec.ofNat 8 payload.length

/-- The longest payload a host can name with `cmd_plen`, 8 bits; longer ones the host refuses itself (R91). -/
def maxPresentablePayload : Nat := 255

/-- `SEAL kind=K seq=S payload=P`: COMPUTE, then ENCODE with the marker it gave; the block afterwards and the frame's bytes, or
none where the payload is refused (R73, R177). -/
def sealFrame (kind : Kind) (seq : SeqBit) (payload : List Byte) (b : State) : State × Option (List Byte) :=
  if maxPresentablePayload < payload.length then (b, none)
  else
    let b1 := b.issue (.compute kind seq (plenOf payload) payload)
    match b1.rsp.bind Response.integ with
    | none => (b1, none)
    | some m =>
      let b2 := b1.issue (.encode kind seq (plenOf payload) payload m)
      (b2, b2.rsp.bind Response.buf)

/-- What OPEN stands for: the frame's fields and whether its marker verifies (R73). -/
structure Opened where
  kind : Kind
  seq : SeqBit
  payload : List Byte
  valid : Bool
  deriving DecidableEq, Repr

/-- `OPEN buf=B`: DECODE, then VERIFY on the fields it gave; none where DECODE fails, and then VERIFY is not issued (R73).
DESIGN CHOICE (log entry 14): bytes longer than the block's `BUFCAP` are handed to DECODE whole, which ends with `ILLEGAL_LEN`;
that is a failure like any other here. -/
def openFrame (bytes : List Byte) (b : State) : State × Option Opened :=
  let b1 := b.issue (.decode bytes bytes.length)
  match b1.rsp with
  | some { kind := some kind, seq := some seq, buf := some payload, integ := some m, .. } =>
    let b2 := b1.issue (.verify kind seq (plenOf payload) payload m)
    (b2, (b2.rsp.bind Response.bool).map fun valid => { kind, seq, payload, valid })
  | _ => (b1, none)

/-- SEND by a host: the block afterwards and the link transaction it made, if any (R31, R138). -/
def sendFrame (bytes : List Byte) (dest : Dest) (b : State) : State × Option LinkTx :=
  let b1 := b.issue (.send bytes bytes.length dest)
  (b1, b1.tx)

/-- TOGGLE by a host: the block afterwards and the bit it gave (R116). -/
def toggleByBlock (bit : SeqBit) (b : State) : State × SeqBit :=
  let b1 := b.issue (.toggle bit)
  (b1, (b1.rsp.bind Response.seq).getD bit)

end Sys2Proof.Machine
end

