-- ==== Sys2Proof/Machine/Receiver.lean ====
section
/-! DEFINITION. The receiver state machine, environment (spec/44_environment_arq.md R183 to R188), each action in the block's
commands. -/

namespace Sys2Proof.Machine

/-- `RX_BAD_POLICY`: the answer to a data unit whose marker does not verify (R186, D26). -/
inductive RxBadPolicy where
  /-- The default: send nothing. -/
  | silent
  /-- Re-send the acknowledgment for `toggle(expected)`. -/
  | reackPrev
  deriving DecidableEq, Repr

/-- The receiver with the block it owns, and what it has delivered to the application, oldest first (R175, R183). -/
structure Receiver where
  block : State
  expected : SeqBit
  delivered : List (List Byte)
  deriving DecidableEq, Repr

/-- The receiver at the start, on a block in state `b`: `expected = Zero` (R35, R183). -/
def Receiver.start (b : State) : Receiver := { block := b, expected := .zero, delivered := [] }

/-- What an action of the receiver leaves: the receiver and what its block put on the link. -/
structure ReceiverStep where
  receiver : Receiver
  link : Option LinkTx := none
  deriving DecidableEq, Repr

/-- Reply with `Acknowledgment{seq, Ok}` (R184, R185, R112). -/
def Receiver.acknowledge (peer : Dest) (seq : SeqBit) (x : Receiver) : ReceiverStep :=
  match sealFrame .ack seq [] x.block with
  | (b, none) => { receiver := { x with block := b } }
  | (b, some frame) =>
    let (b', tx) := sendFrame frame peer b
    { receiver := { x with block := b' }, link := tx }

/-- The receiver advances `expected` (R184). -/
def Receiver.advance (x : Receiver) : Receiver :=
  let (b, e) := toggleByBlock x.expected x.block
  { x with block := b, expected := e }

/-- The receiver receives bytes (R184 to R187). DESIGN CHOICE (log entry 14): bytes that DECODE refuses with `ILLEGAL_LEN` are
dropped like those it refuses with `FRAME_TRUNCATED`. -/
def Receiver.receive (policy : RxBadPolicy) (peer : Dest) (bytes : List Byte) (x : Receiver) : ReceiverStep :=
  match openFrame bytes x.block with
  | (b, none) => { receiver := { x with block := b } }
  | (b, some f) =>
    let x := { x with block := b }
    match f.kind, f.valid with
    | .ack, _ => { receiver := x }
    | .data, false =>
      match policy with
      | .silent => { receiver := x }
      | .reackPrev =>
        let (b', prev) := toggleByBlock x.expected b
        { x with block := b' }.acknowledge peer prev
    | .data, true =>
      if f.seq = x.expected then
        let a := { x with delivered := x.delivered ++ [f.payload] }.acknowledge peer f.seq
        { a with receiver := a.receiver.advance }
      else x.acknowledge peer f.seq

end Sys2Proof.Machine
end

