-- ==== Sys2Proof/Machine/Sender.lean ====
section
/-! DEFINITION. The sender state machine, environment (spec/44_environment_arq.md R176 to R182), each action in the block's
commands. The retry count is unbounded and there is no cancellation, the reference behaviour (R182; log entry 9). -/

namespace Sys2Proof.Machine

/-- `Idle` or `AwaitingAck(number, lastFrame)`; `number` is kept in both (R176). -/
inductive SenderPhase where
  | idle
  | awaitingAck (lastFrame : List Byte)
  deriving DecidableEq, Repr

/-- What the sender reports to its caller. -/
inductive SenderReport where
  /-- The payload was acknowledged (R178). -/
  | success
  /-- `submit` of a payload longer than 63 bytes (R177, R192). -/
  | lengthConstraint
  /-- `submit` while not `Idle`: the call is refused (R177, I22). -/
  | notIdle
  deriving DecidableEq, Repr

/-- The sender with the block it owns (R175, R176). -/
structure Sender where
  block : State
  number : SeqBit
  phase : SenderPhase
  timerArmed : Bool
  deriving DecidableEq, Repr

/-- The sender at the start, on a block in state `b`: `Idle` with `number = Zero` (R35, R176). -/
def Sender.start (b : State) : Sender := { block := b, number := .zero, phase := .idle, timerArmed := false }

/-- What an action of the sender leaves: the sender, what its block put on the link, what it reports. -/
structure SenderStep where
  sender : Sender
  link : Option LinkTx := none
  report : Option SenderReport := none
  deriving DecidableEq, Repr

/-- `submit(payload)` (R177). -/
def Sender.submit (peer : Dest) (payload : List Byte) (x : Sender) : SenderStep :=
  match x.phase with
  | .awaitingAck _ => { sender := x, report := some .notIdle }
  | .idle =>
    match sealFrame .data x.number payload x.block with
    | (b, none) => { sender := { x with block := b }, report := some .lengthConstraint }
    | (b, some frame) =>
      let (b', tx) := sendFrame frame peer b
      { sender := { x with block := b', phase := .awaitingAck frame, timerArmed := true }, link := tx }

/-- The sender receives bytes. While awaiting, a matching and verifying acknowledgment is accepted (R178); everything else is
ignored (R179). While `Idle` the bytes are discarded (R179, D27). DESIGN CHOICE (log entry 14): bytes that DECODE refuses with
`ILLEGAL_LEN` are dropped like those it refuses with `FRAME_TRUNCATED`. -/
def Sender.receive (bytes : List Byte) (x : Sender) : SenderStep :=
  match x.phase with
  | .idle => { sender := x }
  | .awaitingAck _ =>
    match openFrame bytes x.block with
    | (b, none) => { sender := { x with block := b } }
    | (b, some f) =>
      if f.kind = .ack ∧ f.seq = x.number ∧ f.valid = true then
        let (b', n) := toggleByBlock x.number b
        { sender := { block := b', number := n, phase := .idle, timerArmed := false }, report := some .success }
      else { sender := { x with block := b } }

/-- Timer expiry while `AwaitingAck`: the identical stored bytes are sent again and the timer is rearmed (R180, R191). An
expiry with no timer armed does not happen. -/
def Sender.timeout (peer : Dest) (x : Sender) : SenderStep :=
  match x.phase, x.timerArmed with
  | .awaitingAck frame, true =>
    let (b, tx) := sendFrame frame peer x.block
    { sender := { x with block := b, timerArmed := true }, link := tx }
  | _, _ => { sender := x }

end Sys2Proof.Machine
end

