-- ==== Sys2Proof/Machine/Transport.lean ====
section
/-! DEFINITION. The transport between endpoints, environment (spec/44_environment_arq.md R189, R190): datagrams in transit, and
the order in which they leave it. -/

namespace Sys2Proof.Machine

/-- Who hands a datagram to the transport: a peer's block through its link port, or an endpoint that is neither peer
(R31, R175, R189). -/
inductive Endpoint where
  | sender
  | receiver
  | other (addr : Dest)
  deriving DecidableEq, Repr

/-- A datagram in transit (R190). -/
structure Datagram where
  src : Endpoint
  dest : Dest
  bytes : List Byte
  deriving DecidableEq, Repr

/-- What the transport may do with a datagram (R190, D33). -/
inductive Transport where
  /-- The default: each datagram once, unaltered, in the order handed over. -/
  | reliable
  /-- The named weakening: a datagram may also be lost or duplicated; the order stays (R190). -/
  | lossy
  deriving DecidableEq, Repr

/-- Whether a datagram goes from `src` to `dest`: order is kept between the same pair of endpoints only (R190). -/
def Datagram.joins (src : Endpoint) (dest : Dest) (d : Datagram) : Bool := decide (d.src = src ∧ d.dest = dest)

/-- The bytes in transit from `src` to `dest`, in the order handed over (R190). -/
def flow (src : Endpoint) (dest : Dest) (transit : List Datagram) : List (List Byte) :=
  (transit.filter (Datagram.joins src dest)).map Datagram.bytes

/-- The oldest datagram from `src` to `dest`, and what stays in transit without it. -/
def takeOldest (src : Endpoint) (dest : Dest) : List Datagram → Option (Datagram × List Datagram)
  | [] => none
  | d :: ds =>
    if d.joins src dest then some (d, ds)
    else (takeOldest src dest ds).map fun (x, rest) => (x, d :: rest)

/-- What is in transit after a lossy transport has lost the oldest datagram from `src` to `dest`. A reliable one loses
none. -/
def Transport.lose (src : Endpoint) (dest : Dest) (transit : List Datagram) : Transport → List Datagram
  | .reliable => transit
  | .lossy => ((takeOldest src dest transit).map Prod.snd).getD transit

/-- What is in transit after the oldest datagram from `src` to `dest` has been duplicated. -/
def duplicateOldest (src : Endpoint) (dest : Dest) : List Datagram → List Datagram
  | [] => []
  | d :: ds => if d.joins src dest then d :: d :: ds else d :: duplicateOldest src dest ds

/-- A lossy transport duplicates the oldest datagram from `src` to `dest`. A reliable one duplicates none. -/
def Transport.duplicate (src : Endpoint) (dest : Dest) (transit : List Datagram) : Transport → List Datagram
  | .reliable => transit
  | .lossy => duplicateOldest src dest transit

/-- The transport takes a link transaction of `src`'s block, `LinkEmit(bytes, dest)`, whatever its destination (R31, R190). -/
def handOver (src : Endpoint) (tx : Option LinkTx) (transit : List Datagram) : List Datagram :=
  transit ++ (tx.map fun d => { src, dest := d.dest, bytes := d.bytes }).toList

end Sys2Proof.Machine
end

