-- ==== Sys2Proof/Machine/System.lean ====
section
/-! DEFINITION. The closed system: two peers, each with its own block, and the transport between them, environment
(spec/44_environment_arq.md R175, R189 to R191; spec/20_memory.md R53). An event list fixes when datagrams arrive, when the
timer expires and what other hosts do; a claim holds for every event list. What a model needs of timing is fairness alone
(spec/70_reset_and_hazards.md R253): it is a condition on endless runs, at the end of this file. -/

namespace Sys2Proof.Machine

/-- What is fixed for the environment: the open parameters (R7, D26, D33) and the two addresses. -/
structure SystemConfig where
  rxBadPolicy : RxBadPolicy
  transport : Transport
  senderAddr : Dest
  receiverAddr : Dest
  deriving DecidableEq, Repr

/-- The peers are "two independently addressable peers" (R175). -/
abbrev SystemConfig.Legal (c : SystemConfig) : Prop := c.senderAddr ≠ c.receiverAddr

/-- The two peers, the datagrams in transit (oldest first), those that arrived at endpoints other than the peers (oldest
first), the payloads `submit` accepted (oldest first) and the reports to the sender's caller (oldest first). -/
structure System where
  config : SystemConfig
  sender : Sender
  receiver : Receiver
  transit : List Datagram
  elsewhere : List Datagram
  submitted : List (List Byte)
  reports : List SenderReport
  deriving DecidableEq, Repr

/-- The system at the start, on blocks in states `bs` and `br` (R176, R183, R244). -/
def System.start (config : SystemConfig) (bs br : State) : System where
  config := config
  sender := Sender.start bs
  receiver := Receiver.start br
  transit := []
  elsewhere := []
  submitted := []
  reports := []

/-- What happens next. -/
inductive Event where
  /-- The application calls `submit` (R177). -/
  | submit (payload : List Byte)
  /-- The sender's timer expires (R180, R191). -/
  | timeout
  /-- The oldest datagram in transit from `src` to `dest` arrives (R190). -/
  | arrive (src : Endpoint) (dest : Dest)
  /-- Anything else done to the sender's block: configuration, reset, a command of another host of that block
  (R49, R147, R166, R242). -/
  | atSenderBlock (inp : HostInput)
  /-- The same at the receiver's block. -/
  | atReceiverBlock (inp : HostInput)
  /-- An endpoint that is neither peer hands a datagram to the transport (R189). -/
  | sentByOther (addr : Dest) (tx : LinkTx)
  /-- A lossy transport loses the oldest datagram from `src` to `dest`. -/
  | lose (src : Endpoint) (dest : Dest)
  /-- A lossy transport duplicates the oldest datagram from `src` to `dest`. -/
  | duplicate (src : Endpoint) (dest : Dest)
  deriving DecidableEq, Repr

/-- The bytes in transit from `src` to `dest`, oldest first. -/
def System.flow (y : System) (src : Endpoint) (dest : Dest) : List (List Byte) := Machine.flow src dest y.transit

/-- The transport takes what `src`'s block put on its link port (R31, R190). -/
def System.emit (y : System) (src : Endpoint) (tx : Option LinkTx) : System :=
  { y with transit := handOver src tx y.transit }

/-- The system after an action of the sender. -/
def System.afterSender (y : System) (r : SenderStep) : System :=
  { y with sender := r.sender, reports := y.reports ++ r.report.toList }.emit .sender r.link

/-- The system after an action of the receiver. -/
def System.afterReceiver (y : System) (r : ReceiverStep) : System := { y with receiver := r.receiver }.emit .receiver r.link

/-- The system with the payload recorded as submitted, where `submit` had nothing to report against it. -/
def System.recordSubmit (y : System) (payload : List Byte) (report : Option SenderReport) : System :=
  match report with
  | none => { y with submitted := y.submitted ++ [payload] }
  | some _ => y

/-- A datagram arrives at the endpoint it is addressed to (R189, R190): a peer receives its bytes, whoever sent them. -/
def System.deliver (y : System) (d : Datagram) : System :=
  if d.dest = y.config.receiverAddr then
    y.afterReceiver (y.receiver.receive y.config.rxBadPolicy y.config.senderAddr d.bytes)
  else if d.dest = y.config.senderAddr then y.afterSender (y.sender.receive d.bytes)
  else { y with elsewhere := y.elsewhere ++ [d] }

/-- Another host does something to the sender's block; what the block emits goes to the transport like anything else. -/
def System.feedSenderBlock (y : System) (inp : HostInput) : System :=
  let b := y.sender.block.feed inp
  { y with sender := { y.sender with block := b } }.emit .sender b.tx

/-- The same at the receiver's block. -/
def System.feedReceiverBlock (y : System) (inp : HostInput) : System :=
  let b := y.receiver.block.feed inp
  { y with receiver := { y.receiver with block := b } }.emit .receiver b.tx

/-- One event. -/
def System.handle (y : System) : Event → System
  | .submit payload =>
    let r := y.sender.submit y.config.receiverAddr payload
    (y.afterSender r).recordSubmit payload r.report
  | .timeout => y.afterSender (y.sender.timeout y.config.receiverAddr)
  | .arrive src dest =>
    match takeOldest src dest y.transit with
    | none => y
    | some (d, rest) => { y with transit := rest }.deliver d
  | .atSenderBlock inp => y.feedSenderBlock inp
  | .atReceiverBlock inp => y.feedReceiverBlock inp
  | .sentByOther addr tx => y.emit (.other addr) (some tx)
  | .lose src dest => { y with transit := y.config.transport.lose src dest y.transit }
  | .duplicate src dest => { y with transit := y.config.transport.duplicate src dest y.transit }

/-- A run of events. -/
def System.run (y : System) (events : List Event) : System := events.foldl System.handle y

/-! ## Other hosts' datagrams -/

/-- Where a datagram goes that this event lets another host hand over: a SEND on a peer's block that neither state machine
issued, or a datagram of another endpoint. -/
def Event.foreignDest : Event → Option Dest
  | .atSenderBlock (.command p) => if p.op = 6 then some p.dest else none
  | .atReceiverBlock (.command p) => if p.op = 6 then some p.dest else none
  | .sentByOther _ tx => some tx.dest
  | _ => none

/-- The event hands no other host's datagram to a peer: the stream between the two peers is theirs alone. -/
def Event.LeavesStreamAlone (c : SystemConfig) (e : Event) : Prop :=
  ∀ a, e.foreignDest = some a → a ≠ c.senderAddr ∧ a ≠ c.receiverAddr

/-! ## Endless runs and fairness -/

/-- The system after the first `n` events of an endless run. -/
def System.after (y : System) (events : Nat → Event) : Nat → System
  | 0 => y
  | n + 1 => (y.after events n).handle (events n)

/-- Something holds of events of the run again and again, without end. -/
def InfinitelyOften (P : Nat → Prop) : Prop := ∀ n, ∃ m, n ≤ m ∧ P m

/-- "A datagram handed to the transport is eventually delivered" (R253, R190): while anything is in transit between a pair of
endpoints, an arrival of that pair comes. Each takes the oldest, so each datagram's turn comes. -/
def System.FairTransport (y : System) (events : Nat → Event) : Prop :=
  ∀ n src dest, (y.after events n).flow src dest ≠ [] → ∃ m, n ≤ m ∧ events m = .arrive src dest

/-- "An armed timer eventually expires unless cancelled" (R253, R191). -/
def System.FairTimer (y : System) (events : Nat → Event) : Prop :=
  ∀ n, (y.after events n).sender.timerArmed = true →
    ∃ m, n ≤ m ∧ (events m = .timeout ∨ (y.after events m).sender.timerArmed = false)

/-- The fairness of R253 and D28 for the environment. Its third clause, that a command presented is eventually performed, is no
condition: the block's step performs the first input whatever the state is. -/
def System.Fair (y : System) (events : Nat → Event) : Prop := y.FairTransport events ∧ y.FairTimer events

/-- Neither event of a SEND that starts in `b` fires (R134, R145). -/
def State.sendsClean (b : State) : Prop := b.corruptFires = false ∧ b.dropFires = false

/-- In this event the sender sends its stored frame again (R180). -/
def System.resends (y : System) (e : Event) : Prop := e = .timeout ∧ y.sender.timerArmed = true

/-- In this event the receiver gets a data unit that verifies, and so answers it (R184, R185). -/
def System.acknowledges (y : System) (e : Event) : Prop :=
  ∃ src d rest f, e = .arrive src y.config.receiverAddr ∧ y.flow src y.config.receiverAddr = d :: rest ∧
    (openFrame d y.receiver.block).2 = some f ∧ f.kind = .data ∧ f.valid = true

/-- Fairness of the draws, which R145 asks of a model that wants the source's liveness: a retransmission that comes again and
again is clean again and again, and so is an acknowledgment. -/
def System.FairDraws (y : System) (events : Nat → Event) : Prop :=
  (InfinitelyOften (fun n => (y.after events n).resends (events n)) →
    InfinitelyOften fun n => (y.after events n).resends (events n) ∧ (y.after events n).sender.block.sendsClean) ∧
  (InfinitelyOften (fun n => (y.after events n).acknowledges (events n)) →
    InfinitelyOften fun n => (y.after events n).acknowledges (events n) ∧ (y.after events n).receiver.block.sendsClean)

end Sys2Proof.Machine
end

