-- ==== Sys2Proof/Safety.lean ====
section
/-! DEFINITION. What a safe state and a safe run of the block are (spec/10_state.md R21 to R23; spec/60_exceptions.md R225;
spec/70_reset_and_hazards.md R245), and what a safe state of the closed system is (spec/44_environment_arq.md R181, R188). -/

namespace Sys2Proof.Machine

/-- The values the spec allows the registers: `LFSR` is not zero (R21, R245), both thresholds are at most `0x10000` (R22,
R23); and the build is one the spec admits (R7). -/
abbrev State.Inv (s : State) : Prop :=
  s.lfsr ≠ 0x00000000#32 ∧ s.corruptT ≤ Config.thresholdMax ∧ s.dropT ≤ Config.thresholdMax ∧ s.config.Legal

/-- A run of `n` steps from `s` is safe when it neither faults nor refuses and ends with the registers legal (R225, R245). -/
def SafeRun (n : Nat) (s : State) : Prop := ∃ t, Sys2Proof.core.run n s = .next t ∧ t.Inv

/-- The length of the one cycle of non-zero values of `LFSR` (R132). -/
def lfsrPeriod : Nat := 2 ^ 32 - 1

/-- The value of `LFSR` at the start of the `k`-th SEND after one that starts from `s`, when nothing seeds the register
between (R133, R135). -/
def lfsrAtSend (k : Nat) (s : Word) : Word := lfsrSteps (Config.stepsPerSend * k) s

/-- The bytes of the frame SEAL makes on a block of build `c`: the content, then its marker (R73, R110, R112). -/
def sealedBytes (c : Config) (kind : Kind) (seq : SeqBit) (payload : List Byte) : List Byte :=
  content kind seq payload ++ [integrityFn c (content kind seq payload)]

/-! ## The closed system -/

/-- Each of these datagrams is a frame of this kind, number and payload, whatever its marker has become. -/
def AllFrames (kind : Kind) (seq : SeqBit) (payload : List Byte) (datagrams : List (List Byte)) : Prop :=
  ∀ d ∈ datagrams, ∃ m, d = content kind seq payload ++ [m]

/-- The data units in transit, oldest first. -/
abbrev System.data (y : System) : List (List Byte) := y.flow .sender y.config.receiverAddr

/-- The acknowledgments in transit, oldest first. -/
abbrev System.acks (y : System) : List (List Byte) := y.flow .receiver y.config.senderAddr

/-- What is in transit to a peer comes from the other peer. -/
def System.OnlyPeersSpeak (y : System) : Prop :=
  ∀ d ∈ y.transit, (d.dest = y.config.receiverAddr → d.src = .sender) ∧ (d.dest = y.config.senderAddr → d.src = .receiver)

/-- Nothing is outstanding: all that was submitted is delivered and reported, and what is still in transit is old. -/
def System.AtRest (y : System) : Prop :=
  y.sender.timerArmed = false ∧ y.receiver.expected = y.sender.number ∧ y.receiver.delivered = y.submitted ∧
    y.reports.count .success = y.submitted.length ∧
    (∃ old, old.length ≤ 63 ∧ AllFrames .data (toggleBit y.sender.number) old y.data) ∧
    AllFrames .ack (toggleBit y.sender.number) [] y.acks

/-- The payload outstanding is not delivered yet: in transit, data units of the last number come before those of this one,
and every acknowledgment is of the last number. -/
def System.Undelivered (y : System) (before : List (List Byte)) (payload : List Byte) : Prop :=
  y.receiver.expected = y.sender.number ∧ y.receiver.delivered = before ∧
    (∃ old o n, old.length ≤ 63 ∧ y.data = o ++ n ∧ AllFrames .data (toggleBit y.sender.number) old o ∧
      AllFrames .data y.sender.number payload n) ∧
    AllFrames .ack (toggleBit y.sender.number) [] y.acks

/-- The payload outstanding is delivered: in transit, every data unit is of this number, and acknowledgments of the last
number come before those of this one. -/
def System.Delivered (y : System) (before : List (List Byte)) (payload : List Byte) : Prop :=
  y.receiver.expected = toggleBit y.sender.number ∧ y.receiver.delivered = before ++ [payload] ∧
    AllFrames .data y.sender.number payload y.data ∧
    ∃ o n, y.acks = o ++ n ∧ AllFrames .ack (toggleBit y.sender.number) [] o ∧ AllFrames .ack y.sender.number [] n

/-- The sender holds the sealed frame of the last payload submitted; every earlier one is delivered and reported. -/
def System.Outstanding (y : System) (frame : List Byte) : Prop :=
  y.sender.timerArmed = true ∧ ∃ before payload, payload.length ≤ 63 ∧ y.submitted = before ++ [payload] ∧
    frame = sealedBytes y.sender.block.config .data y.sender.number payload ∧
    y.reports.count .success = before.length ∧ (y.Undelivered before payload ∨ y.Delivered before payload)

/-- The alternating-bit invariant of the closed system (R176 to R188). -/
def System.Inv (y : System) : Prop :=
  y.config.Legal ∧ y.sender.block.config.Legal ∧ y.receiver.block.config.Legal ∧ y.OnlyPeersSpeak ∧
    match y.sender.phase with
    | .idle => y.AtRest
    | .awaitingAck frame => y.Outstanding frame

end Sys2Proof.Machine
end

