-- ==== Sys2Proof/Certificates/Slice0/Obligations.lean ====
section
/-! DEFINITION. The statements for the provers. "R<n>" names a rule of spec/. -/

open Sys2Proof Sys2Proof.Machine

/-! ## The step, the ports and reset -/

/-- When the next input presents an instruction, the step is that instruction performed whole in the state with the input taken;
nothing else happens around it. That the inputs to come stand in a list of which each step takes the first is the model's choice
(log entry 1), and so is that a datagram handed to the decoder is an instruction (log entry 6); that a command is performed
whole, and by its code, is R5, R49 and R70. -/
def Obligations.StepRunsDecodedInstruction : Prop :=
  ∀ (s : State) (inp : HostInput) (rest : List HostInput) (i : Instr),
    s.inputs = inp :: rest → decodeInput inp = some i → step s = exec i { s with inputs := rest }

/-- With nothing presented the registers hold (R24, R220, R224). That neither output port is driven then is the model's choice
(log entry 12), and so is that an empty list of inputs presents nothing (log entry 1). -/
def Obligations.IdleStepHoldsEverything : Prop :=
  (∀ s : State, s.inputs = [] → step s = .next { s with rsp := none, tx := none }) ∧
  (∀ (s : State) (rest : List HostInput), s.inputs = .idle :: rest →
    step s = .next { s with rsp := none, tx := none, inputs := rest })

/-- While `rst` is asserted no command is taken; the registers take their reset values whatever was presented or in progress, and a
command in progress gives no response and no link transaction (R32, R34, R242). That the ports are silent where no command was
in progress is the model's choice (log entry 12); that the reset is an input of the list is log entry 1's. -/
def Obligations.ResetInputLoadsResetValues : Prop :=
  ∀ (s : State) (inProgress : Option CmdPort) (rest : List HostInput), s.inputs = .reset inProgress :: rest →
    step s = .next
      { s with corruptT := 0x00000, dropT := 0x00000, lfsr := 0xFFFFFFFF, rsp := none, tx := none, inputs := rest }

/-- R34, R240: what reset leaves in the three registers. -/
def Obligations.ResetValues : Prop :=
  State.reset.corruptT = 0x00000 ∧ State.reset.dropT = 0x00000 ∧ State.reset.lfsr = 0xFFFFFFFF

/-- A step gives a response exactly when a command is taken (`cmd_valid` and `cmd_ready`), it makes a link transaction only then,
and it consumes one input. One response for each command taken is R29, R30 and R31. The model's own: the inputs in a list (log
entry 1), silence in a step that takes no command (log entry 12), `cmd_ready` 0 under `rst` alone (log entry 8, from R32), and a
datagram handed to the decoder counted as a command (log entry 6). -/
def Obligations.OneResponsePerCommandTaken : Prop :=
  ∀ s t : State, step s = .next t →
    (t.rsp.isSome = (s.cmdValid && s.cmdReady)) ∧ (t.tx.isSome = true → s.cmdValid = true ∧ s.cmdReady = true) ∧
    t.inputs = s.inputs.tail

/-- The block cannot hang, get stuck or refuse: every step, from every state and with any operand values, answers a next state.
R225 says so provided the link port accepts the transaction; that it does within the step is log entry 11 (DEDUCED, unsafe). -/
def Obligations.StepAlwaysAnswers : Prop := ∀ s : State, ∃ t, step s = .next t

/-- R21, R22, R23, R245: every step keeps `LFSR` non-zero, both thresholds at most `0x10000`, and the build legal. -/
def Obligations.StepKeepsInvariant : Prop := ∀ s t : State, s.Inv → step s = .next t → t.Inv

/-- The state after reset meets the invariant (the register values are R34's; the build is R7's default). -/
def Obligations.ResetMeetsInvariant : Prop := State.reset.Inv

/-- R7: the build parameters are no registers; no step changes them (that the state carries them is the model's choice, log
entry 2). -/
def Obligations.BuildNeverChanges : Prop := ∀ s t : State, step s = .next t → t.config = s.config

/-! ## Decoding -/

/-- R60, R61, R62, R70: a few words written out from the spec's encodings decode to what they stand for (that a frame is an
instruction of its own is the model's choice, log entry 6). -/
def Obligations.DecodesWordsOfTheSpec : Prop :=
  decodeTableWord 8 0b0000 = some .nop ∧
  decodeTableWord 8 0b0110 = some (.send [] 0 0) ∧
  decodeTableWord 8 0b1000 = some (.cfgrd 0) ∧
  decodeTableWord 8 0b1011 = some .reservedB ∧
  decodeInput (.datagram [0x84, 0x63, 0x69, 0x61, 0x6F, 0x00]) =
    some (.frameData .zero [0x63, 0x69, 0x61, 0x6F] 0x00) ∧
  decodeInput (.datagram [0x40, 0x00]) = some (.frameAck .one 0b000000 0x00) ∧
  decodeInput (.datagram [0x7F, 0x12]) = some (.frameAck .one 0b111111 0x12)

/-- R29, R60, R61, R70: what is presented for a well-formed instruction decodes to that instruction, every operand
included (that a frame is an instruction of its own is the model's choice, log entry 6). -/
def Obligations.DecodeOfEncodeIsIdentity : Prop :=
  ∀ (c : Config) (i : Instr), i.wellFormed c = true → decodeInput (encodeInput i) = some i

/-- R66, R67: every value of the header byte selects a frame format, and fixes the frame's length, its sequence bit and its
payload length. -/
def Obligations.EveryHeaderSelectsAFrame : Prop :=
  (∀ h : Byte, frameLength h = if h.toNat < 128 then 2 else h.toNat % 64 + 2) ∧
  (∀ (h : Byte) (body : List Byte), (h :: body).length = frameLength h →
    decodeDatagram (h :: body) =
      if h.toNat < 128 then
        .frameAck (SeqBit.ofBit (decide (64 ≤ h.toNat % 128))) (BitVec.ofNat 6 (h.toNat % 64)) (body.getD 0 0)
      else
        .frameData (SeqBit.ofBit (decide (64 ≤ h.toNat % 128))) (body.take (h.toNat % 64)) (body.getD (h.toNat % 64) 0))

/-- R29: a port field that a command does not read is ignored: which instruction a presented command is depends on the fields it
reads alone. -/
def Obligations.UnreadPortFieldsAreIgnored : Prop :=
  ∀ p q : CmdPort, p.op = q.op →
    (p.op.toNat ∈ [1, 3, 4] → p.kind = q.kind ∧ p.plen = q.plen ∧ p.buf = q.buf) →
    (p.op.toNat ∈ [1, 3, 4, 5] → p.seq = q.seq) →
    (p.op.toNat ∈ [1, 4] → p.integ = q.integ) →
    (p.op.toNat ∈ [2, 6] → p.buf = q.buf ∧ p.blen = q.blen) →
    (p.op.toNat = 6 → p.dest = q.dest) →
    (p.op.toNat ∈ [7, 8] → p.reg = q.reg) →
    (p.op.toNat = 7 → p.wdata = q.wdata) →
    decodeCommand p = decodeCommand q

/-! ## The frame codec -/

/-- R90, R91, R92: ENCODE's answer for every operand: an Acknowledgment, a DataUnit of at most 63 payload bytes, and the
length-constraint error. Nothing else of the state changes. -/
def Obligations.EncodeOutcome : Prop :=
  ∀ (seq : SeqBit) (plen : Byte) (buf : List Byte) (integ : Byte) (s : State),
    exec (.encode .ack seq plen buf integ) s = .next
      { s with rsp := some { status := .ok, buf := some [BitVec.ofNat 8 (0x40 * seq.bit.toNat), integ] }, tx := none } ∧
    (plen.toNat ≤ 63 → exec (.encode .data seq plen buf integ) s = .next
      { s with
        rsp := some
          { status := .ok
            buf := some (BitVec.ofNat 8 (0x80 + 0x40 * seq.bit.toNat + plen.toNat) ::
              (takeBytes plen.toNat buf ++ [integ])) }
        tx := none }) ∧
    (63 < plen.toNat → exec (.encode .data seq plen buf integ) s = .next
      { s with rsp := some { status := .lengthConstraint }, tx := none })

/-- R93, R94: DECODE's answer for every buffer, index by index. Nothing else of the state changes. -/
def Obligations.DecodeOutcome : Prop :=
  ∀ (buf : List Byte) (blen : Nat) (s : State),
    let bytes := takeBytes blen buf
    let h := bytes.getD 0 0
    let n := h.toNat % 64
    (s.config.bufCap < blen → exec (.decode buf blen) s = .next
      { s with rsp := some { status := .illegalLen }, tx := none }) ∧
    (blen ≤ s.config.bufCap → blen < 2 → exec (.decode buf blen) s = .next
      { s with rsp := some { status := .frameTruncated }, tx := none }) ∧
    (blen ≤ s.config.bufCap → 2 ≤ blen → h.toNat < 128 → exec (.decode buf blen) s = .next
      { s with
        rsp := some
          { status := .ok, kind := some .ack, seq := some (SeqBit.ofBit (decide (64 ≤ h.toNat))), plen := some 0
            buf := some [], integ := some (bytes.getD 1 0), used := some 2 }
        tx := none }) ∧
    (blen ≤ s.config.bufCap → n + 2 ≤ blen → 128 ≤ h.toNat → exec (.decode buf blen) s = .next
      { s with
        rsp := some
          { status := .ok, kind := some .data, seq := some (SeqBit.ofBit (decide (192 ≤ h.toNat)))
            plen := some (BitVec.ofNat 6 n), buf := some ((bytes.drop 1).take n), integ := some (bytes.getD (n + 1) 0)
            used := some (BitVec.ofNat 7 (n + 2)) }
        tx := none }) ∧
    (blen ≤ s.config.bufCap → 2 ≤ blen → 128 ≤ h.toNat → blen < n + 2 → exec (.decode buf blen) s = .next
      { s with rsp := some { status := .frameTruncated }, tx := none })

/-- R96, the round-trip contract: whatever well-formed frame ENCODE is given, DECODE of the bytes it answers gives that frame
back, and `used` is the number of those bytes. The two commands may run on different blocks. -/
def Obligations.DecodeAfterEncodeGivesTheFrame : Prop :=
  ∀ (kind : Kind) (seq : SeqBit) (plen : Byte) (buf : List Byte) (integ : Byte) (s u : State),
    u.config.Legal → (kind = .data → plen.toNat ≤ 63) →
    ∃ bytes : List Byte, bytes.length ≤ 65 ∧
      exec (.encode kind seq plen buf integ) s = .next
        { s with rsp := some { status := .ok, buf := some bytes }, tx := none } ∧
      exec (.decode bytes bytes.length) u = .next
        { u with
          rsp := some
            { status := .ok, kind := some kind, seq := some seq, integ := some integ
              plen := some (match kind with | .ack => 0 | .data => BitVec.ofNat 6 plen.toNat)
              buf := some (match kind with | .ack => [] | .data => takeBytes plen.toNat buf)
              used := some (BitVec.ofNat 7 bytes.length) }
          tx := none }

/-- R97: ENCODE of the fields of a successful DECODE never fails and gives the first `used` bytes back, except that the six
unused bits of an ACK header are zero; so it gives the whole buffer back exactly when nothing follows the frame and, for an ACK,
those bits were zero. -/
def Obligations.EncodeAfterDecodeGivesTheBytes : Prop :=
  ∀ (buf : List Byte) (blen : Nat) (s u : State) (kind : Kind) (seq : SeqBit) (plen : BitVec 6) (payload : List Byte)
    (integ : Byte) (used : BitVec 7),
    exec (.decode buf blen) s = .next
      { s with
        rsp := some
          { status := .ok, kind := some kind, seq := some seq, plen := some plen, buf := some payload
            integ := some integ, used := some used }
        tx := none } →
    ∃ bytes : List Byte,
      exec (.encode kind seq (plen.setWidth 8) payload integ) u = .next
        { u with rsp := some { status := .ok, buf := some bytes }, tx := none } ∧
      (kind = .data → bytes = (takeBytes blen buf).take used.toNat) ∧
      (kind = .ack → bytes = [(takeBytes blen buf).getD 0 0 &&& 0xC0, (takeBytes blen buf).getD 1 0]) ∧
      (bytes = takeBytes blen buf ↔
        blen = used.toNat ∧ (kind = .ack → ((takeBytes blen buf).getD 0 0).toNat % 64 = 0))

/-- From R95 with R93: where a buffer decodes, bytes after it change nothing in DECODE's answer, `used` included, as long as all of
them fit. -/
def Obligations.DecodeIgnoresTrailingBytes : Prop :=
  ∀ (bytes trailing : List Byte) (s : State) (r : Response), r.status = .ok →
    exec (.decode bytes bytes.length) s = .next { s with rsp := some r, tx := none } →
    (bytes ++ trailing).length ≤ s.config.bufCap →
    exec (.decode (bytes ++ trailing) (bytes ++ trailing).length) s = .next { s with rsp := some r, tx := none }

/-- R41, R47: bytes at or above the length of a buffer operand are never read and cannot affect any result or effect of a
command. -/
def Obligations.BytesAboveTheLengthAreNeverRead : Prop :=
  ∀ (b₁ b₂ : List Byte) (n : Nat) (s : State), (∀ i < n, b₁.getD i 0 = b₂.getD i 0) →
    exec (.decode b₁ n) s = exec (.decode b₂ n) s ∧
    (∀ dest, exec (.send b₁ n dest) s = exec (.send b₂ n dest) s) ∧
    (∀ (kind : Kind) (seq : SeqBit) (plen integ : Byte), plen.toNat = n →
      exec (.encode kind seq plen b₁ integ) s = exec (.encode kind seq plen b₂ integ) s ∧
      exec (.compute kind seq plen b₁) s = exec (.compute kind seq plen b₂) s ∧
      exec (.verify kind seq plen b₁ integ) s = exec (.verify kind seq plen b₂ integ) s)

/-- R98: ENCODE is injective on well-formed frames: operands that give the same bytes name the same frame. -/
def Obligations.EncodeIsInjective : Prop :=
  ∀ (k₁ k₂ : Kind) (q₁ q₂ : SeqBit) (n₁ n₂ : Byte) (b₁ b₂ : List Byte) (m₁ m₂ : Byte) (s : State) (bytes : List Byte),
    exec (.encode k₁ q₁ n₁ b₁ m₁) s = .next
      { s with rsp := some { status := .ok, buf := some bytes }, tx := none } →
    exec (.encode k₂ q₂ n₂ b₂ m₂) s = .next
      { s with rsp := some { status := .ok, buf := some bytes }, tx := none } →
    k₁ = k₂ ∧ q₁ = q₂ ∧ m₁ = m₂ ∧ (k₁ = .data → n₁ = n₂ ∧ takeBytes n₁.toNat b₁ = takeBytes n₂.toNat b₂)

/-- A frame of format ACK or DATA handed to the block's decoder is answered as DECODE answers its bytes (R60, R61, R93). That
the two format rows of the opcode table are run so is the model's choice, log entry 6. -/
def Obligations.FrameRowsAreDecoded : Prop :=
  (∀ (seq : SeqBit) (unused : BitVec 6) (integ : Byte) (s : State), s.config.Legal →
    exec (.frameAck seq unused integ) s = .next
      { s with
        rsp := some
          { status := .ok, kind := some .ack, seq := some seq, plen := some 0, buf := some [], integ := some integ
            used := some 2 }
        tx := none }) ∧
  (∀ (seq : SeqBit) (payload : List Byte) (integ : Byte) (s : State), s.config.Legal → payload.length ≤ 63 →
    exec (.frameData seq payload integ) s = .next
      { s with
        rsp := some
          { status := .ok, kind := some .data, seq := some seq, plen := some (BitVec.ofNat 6 payload.length)
            buf := some payload, integ := some integ, used := some (BitVec.ofNat 7 (payload.length + 2)) }
        tx := none })

/-! ## The integrity marker and the sequence bit -/

/-- R110, R114: COMPUTE's answer for every operand. Nothing else of the state changes. -/
def Obligations.ComputeOutcome : Prop :=
  ∀ (seq : SeqBit) (plen : Byte) (buf : List Byte) (s : State),
    exec (.compute .ack seq plen buf) s = .next
      { s with
        rsp := some { status := .ok, integ := some (integrityFn s.config [BitVec.ofNat 8 (0x40 * seq.bit.toNat)]) }
        tx := none } ∧
    (plen.toNat ≤ 63 → exec (.compute .data seq plen buf) s = .next
      { s with
        rsp := some
          { status := .ok
            integ := some (integrityFn s.config
              (BitVec.ofNat 8 (0x80 + 0x40 * seq.bit.toNat + plen.toNat) :: takeBytes plen.toNat buf)) }
        tx := none }) ∧
    (63 < plen.toNat → exec (.compute .data seq plen buf) s = .next
      { s with rsp := some { status := .lengthConstraint }, tx := none })

/-- R110, R115: VERIFY's answer for every operand; a marker that does not verify is no error. Nothing else of the state
changes. -/
def Obligations.VerifyOutcome : Prop :=
  ∀ (seq : SeqBit) (plen : Byte) (buf : List Byte) (integ : Byte) (s : State),
    exec (.verify .ack seq plen buf integ) s = .next
      { s with
        rsp := some
          { status := .ok
            bool := some (integ == integrityFn s.config [BitVec.ofNat 8 (0x40 * seq.bit.toNat)]) }
        tx := none } ∧
    (plen.toNat ≤ 63 → exec (.verify .data seq plen buf integ) s = .next
      { s with
        rsp := some
          { status := .ok
            bool := some (integ == integrityFn s.config
              (BitVec.ofNat 8 (0x80 + 0x40 * seq.bit.toNat + plen.toNat) :: takeBytes plen.toNat buf)) }
        tx := none }) ∧
    (63 < plen.toNat → exec (.verify .data seq plen buf integ) s = .next
      { s with rsp := some { status := .lengthConstraint }, tx := none })

/-- R111, R113: the integrity function of the two modes the spec gives: the constant `0x00`; and, bit by bit, the parity of that
bit over all content bytes. -/
def Obligations.IntegrityFunctionOfEachMode : Prop :=
  ∀ (c : Config) (bytes : List Byte),
    (c.integrityMode = .status → integrityFn c bytes = 0x00) ∧
    (c.integrityMode = .xor8 → ∀ k : Nat, k < 8 →
      (integrityFn c bytes).getLsbD k = decide ((bytes.countP fun b => b.getLsbD k) % 2 = 1))

/-- R117: where neither raises `LENGTH_CONSTRAINT`, VERIFY says whether the marker is the one COMPUTE gives for the same
operands, and exactly one of the 256 markers verifies. -/
def Obligations.VerifyAgreesWithCompute : Prop :=
  ∀ (kind : Kind) (seq : SeqBit) (plen : Byte) (buf : List Byte) (s : State), (kind = .data → plen.toNat ≤ 63) →
    ∃ m : Byte,
      exec (.compute kind seq plen buf) s = .next
        { s with rsp := some { status := .ok, integ := some m }, tx := none } ∧
      ∀ m' : Byte, exec (.verify kind seq plen buf m') s = .next
        { s with rsp := some { status := .ok, bool := some (m' == m) }, tx := none }

/-- R116: TOGGLE gives the other bit, for both values. Nothing else of the state changes. -/
def Obligations.ToggleOutcome : Prop :=
  ∀ s : State,
    exec (.toggle .zero) s = .next { s with rsp := some { status := .ok, seq := some .one }, tx := none } ∧
    exec (.toggle .one) s = .next { s with rsp := some { status := .ok, seq := some .zero }, tx := none }

/-- R118, on the integrity function itself: in mode `XOR8`, change one bit anywhere in content followed by its marker, and the
function of the changed content bytes is not the changed marker byte. It is about those bytes, not about DECODE and VERIFY,
which rebuild the header and so do not see an ACK header's unused bits. -/
def Obligations.Xor8DetectsOneBitChange : Prop :=
  ∀ (c : Config) (cont : List Byte) (i b : Nat), c.integrityMode = .xor8 → b < 8 →
    let frame := cont ++ [integrityFn c cont]
    i < frame.length →
    let changed := frame.set i (frame.getD i 0 ^^^ BitVec.twoPow 8 b)
    integrityFn c changed.dropLast ≠ changed.getLastD 0

/-- R118, R136: in every integrity mode, the corruption SEND makes to a sealed frame is detected at a peer of the same build:
what reaches the link decodes to the same fields but for the marker, and that marker does not verify. -/
def Obligations.CorruptedSealedFrameIsDetected : Prop :=
  ∀ (s : State) (kind : Kind) (seq : SeqBit) (plen : Byte) (buf : List Byte) (dest : Dest), s.config.Legal →
    (kind = .data → plen.toNat ≤ 63) → s.corruptFires = true → s.dropFires = false →
    ∃ (m m' : Byte) (frame sent : List Byte),
      exec (.compute kind seq plen buf) s = .next
        { s with rsp := some { status := .ok, integ := some m }, tx := none } ∧
      exec (.encode kind seq plen buf m) s = .next
        { s with rsp := some { status := .ok, buf := some frame }, tx := none } ∧
      (∃ t, exec (.send frame frame.length dest) s = .next t ∧ t.tx = some { bytes := sent, dest := dest }) ∧
      m' ≠ m ∧
      ∀ u : State, u.config = s.config →
        exec (.decode sent sent.length) u = .next
          { u with
            rsp := some
              { status := .ok, kind := some kind, seq := some seq, integ := some m'
                plen := some (match kind with | .ack => 0 | .data => BitVec.ofNat 6 plen.toNat)
                buf := some (match kind with | .ack => [] | .data => takeBytes plen.toNat buf)
                used := some (BitVec.ofNat 7 frame.length) }
            tx := none } ∧
        exec (.verify kind seq plen buf m') u = .next
          { u with rsp := some { status := .ok, bool := some false }, tx := none }

/-! ## The fault injector -/

/-- R131: the step of the shift register, on numbers, with the worked steps of the rule. -/
def Obligations.LfsrStepOnNumbers : Prop :=
  (∀ s : Word, lfsrStep s =
    (s >>> 1) ||| (BitVec.setWidth 32 (BitVec.ofBool (s[0] ^^ s[10] ^^ s[30] ^^ s[31])) <<< 31)) ∧
  lfsrStep 0xFFFFFFFF = 0x7FFFFFFF ∧ lfsrStep 0x7FFFFFFF = 0xBFFFFFFF ∧ lfsrStep 0x00000001 = 0x80000000 ∧
  lfsrStep 0x80000000 = 0xC0000000 ∧ lfsrStep 0x00000400 = 0x80000200 ∧ lfsrStep 0x40000000 = 0xA0000000 ∧
  lfsrStep 0xACE1ACE1 = 0xD670D670 ∧ lfsrStep 0x00000000 = 0x00000000

/-- R132 (a), (b): the step is a bijection, and zero is its lock-up state: zero steps to zero, and nothing else does. -/
def Obligations.LfsrStepIsBijective : Prop :=
  Function.Bijective lfsrStep ∧ ∀ s : Word, lfsrStep s = 0 ↔ s = 0

/-- R132 (c), (d): the non-zero values form one cycle of length `2^32 - 1`, of the step and of thirty-two steps alike. -/
def Obligations.LfsrNonZeroValuesFormOneCycle : Prop :=
  ∀ v : Word, v ≠ 0 →
    (lfsrSteps lfsrPeriod v = v ∧ ∀ w : Word, w ≠ 0 → ∃! k : Nat, k < lfsrPeriod ∧ lfsrSteps k v = w) ∧
    (lfsrAtSend lfsrPeriod v = v ∧ ∀ w : Word, w ≠ 0 → ∃! k : Nat, k < lfsrPeriod ∧ lfsrAtSend k v = w)

/-- R134: the two events of a SEND compare the low and the high half of `LFSR` with their thresholds; a threshold `T` fires on
exactly `T` of the 65536 samples, those below it; so `0x00000` never fires and `0x10000` always does. -/
def Obligations.ThresholdFiresOnExactlyThatManySamples : Prop :=
  (∀ s : State, (s.corruptFires = true ↔ s.lfsr.toNat % 65536 < s.corruptT.toNat) ∧
    (s.dropFires = true ↔ s.lfsr.toNat / 65536 < s.dropT.toNat)) ∧
  (∀ (r : Sample) (t : Threshold), fires r t = true ↔ r.toNat < t.toNat) ∧
  (∀ t : Threshold, t ≤ Config.thresholdMax →
    (Finset.univ.filter fun r : Sample => fires r t = true).card = t.toNat) ∧
  (∀ r : Sample, fires r 0x00000 = false ∧ fires r 0x10000 = true)

/-- R135: over one period of SENDs with fixed thresholds, corruption fires on `Tc × 65536 - [Tc > 0]` of them, a drop on
`Td × 65536 - [Td > 0]`, and both together on `Tc × Td - [Tc > 0 and Td > 0]`. -/
def Obligations.EventCountsOverOnePeriod : Prop :=
  ∀ (v : Word) (tc td : Threshold), v ≠ 0 → tc ≤ Config.thresholdMax → td ≤ Config.thresholdMax →
    ((Finset.range lfsrPeriod).filter fun k => fires (corruptSample (lfsrAtSend k v)) tc = true).card =
      tc.toNat * 65536 - (if 0 < tc.toNat then 1 else 0) ∧
    ((Finset.range lfsrPeriod).filter fun k => fires (dropSample (lfsrAtSend k v)) td = true).card =
      td.toNat * 65536 - (if 0 < td.toNat then 1 else 0) ∧
    ((Finset.range lfsrPeriod).filter fun k =>
        fires (corruptSample (lfsrAtSend k v)) tc = true ∧ fires (dropSample (lfsrAtSend k v)) td = true).card =
      tc.toNat * td.toNat - (if 0 < tc.toNat ∧ 0 < td.toNat then 1 else 0)

/-- R145: with both thresholds below `0x10000`, every run of `2^32 - 1` consecutive SENDs of one block contains one on which
neither event fires. -/
def Obligations.CleanSendInEveryPeriod : Prop :=
  ∀ s : State, s.lfsr ≠ 0 → s.corruptT.toNat ≤ 0xFFFF → s.dropT.toNat ≤ 0xFFFF →
    ∃ k, k < lfsrPeriod ∧ ({ s with lfsr := lfsrAtSend k s.lfsr } : State).corruptFires = false ∧
      ({ s with lfsr := lfsrAtSend k s.lfsr } : State).dropFires = false

/-- R133, R134, R136, R137, R138, R139: SEND's effect for every buffer and every value of the registers, on numbers. The
register advances by 32 steps whatever happens; nothing else of the state changes. -/
def Obligations.SendOutcome : Prop :=
  ∀ (buf : List Byte) (blen : Nat) (dest : Dest) (s : State),
    let bytes := takeBytes blen buf
    let rc := s.lfsr.toNat % 65536
    let rd := s.lfsr.toNat / 65536
    let out :=
      if rc < s.corruptT.toNat ∧ 0 < blen then
        bytes.set (blen - 1) (bytes.getD (blen - 1) 0 ^^^ BitVec.twoPow 8 (rc % 8))
      else bytes
    (blen ≤ s.config.bufCap → exec (.send buf blen dest) s = .next
      { s with
        lfsr := lfsrSteps 32 s.lfsr
        rsp := some { status := .ok }
        tx := if rd < s.dropT.toNat then none else some { bytes := out, dest := dest } }) ∧
    (s.config.bufCap < blen → exec (.send buf blen dest) s = .next
      { s with rsp := some { status := .illegalLen }, tx := none })

/-- R141, R142: the response of SEND, and how `LFSR` advances, tell nothing of the frame's fate, the thresholds or the
destination, and neither event depends on the bytes or the destination. -/
def Obligations.SendTellsNothing : Prop :=
  ∀ (b₁ b₂ : List Byte) (n₁ n₂ : Nat) (d₁ d₂ : Dest) (s₁ s₂ t₁ t₂ : State),
    n₁ ≤ s₁.config.bufCap → n₂ ≤ s₂.config.bufCap → exec (.send b₁ n₁ d₁) s₁ = .next t₁ →
    exec (.send b₂ n₂ d₂) s₂ = .next t₂ →
    t₁.rsp = t₂.rsp ∧ (s₁.lfsr = s₂.lfsr → t₁.lfsr = t₂.lfsr) ∧
    (s₁.lfsr = s₂.lfsr → s₁.dropT = s₂.dropT → t₁.tx.isSome = t₂.tx.isSome) ∧
    (∀ x, t₁.tx = some x → x.dest = d₁ ∧ x.bytes.length = n₁)

/-- R49, R139, R147: commands of any hosts run one after another on the one port; while none of them seeds `LFSR`, it advances
by 32 steps for each SEND with a legal length, and for nothing else, whatever the thresholds. -/
def Obligations.EachSendTakesTheNextThirtyTwoBits : Prop :=
  ∀ (s : State) (ports : List CmdPort) (rest : List HostInput),
    s.inputs = ports.map HostInput.command ++ rest → (∀ p ∈ ports, p.op = 7 → p.reg ≠ 2) →
    ∃ t : State, Sys2Proof.core.run ports.length s = .next t ∧ t.inputs = rest ∧
      t.lfsr = lfsrAtSend (ports.countP fun p => decide (p.op = 6 ∧ p.blen ≤ s.config.bufCap)) s.lfsr

/-! ## Configuration -/

/-- R160: NOP does nothing but answer `OK`. -/
def Obligations.NopOutcome : Prop :=
  ∀ s : State, exec .nop s = .next { s with rsp := some { status := .ok }, tx := none }

/-- R161, R162, R163, R164: CFGWR's effect for every register index and every value: thresholds clamp at `0x10000`, a seed of
zero loads `0xFFFFFFFF`, index 3 is refused. The other registers do not change. -/
def Obligations.CfgwrOutcome : Prop :=
  ∀ (w : Word) (s : State),
    exec (.cfgwr 0 w) s = .next
      { s with corruptT := BitVec.ofNat 17 (min w.toNat 65536), rsp := some { status := .ok }, tx := none } ∧
    exec (.cfgwr 1 w) s = .next
      { s with dropT := BitVec.ofNat 17 (min w.toNat 65536), rsp := some { status := .ok }, tx := none } ∧
    exec (.cfgwr 2 w) s = .next
      { s with lfsr := if w.toNat = 0 then 0xFFFFFFFF else w, rsp := some { status := .ok }, tx := none } ∧
    exec (.cfgwr 3 w) s = .next { s with rsp := some { status := .illegalReg }, tx := none }

/-- R43, R165: CFGRD's answer for every register index: the whole register, zero-extended; index 3 is refused. Nothing of the
state changes but the ports, `LFSR` included. -/
def Obligations.CfgrdOutcome : Prop :=
  ∀ s : State,
    exec (.cfgrd 0) s = .next
      { s with rsp := some { status := .ok, rdata := some (BitVec.ofNat 32 s.corruptT.toNat) }, tx := none } ∧
    exec (.cfgrd 1) s = .next
      { s with rsp := some { status := .ok, rdata := some (BitVec.ofNat 32 s.dropT.toNat) }, tx := none } ∧
    exec (.cfgrd 2) s = .next { s with rsp := some { status := .ok, rdata := some s.lfsr }, tx := none } ∧
    exec (.cfgrd 3) s = .next { s with rsp := some { status := .illegalReg }, tx := none }

/-- R133, R146, R163: the SEND that follows a seed takes its two samples from the seed itself. -/
def Obligations.SeedDecidesTheNextSend : Prop :=
  ∀ (s t : State) (v : Word), v ≠ 0 → exec (.cfgwr 2 v) s = .next t →
    t.corruptFires = decide (v.toNat % 65536 < s.corruptT.toNat) ∧
    t.dropFires = decide (v.toNat / 65536 < s.dropT.toNat)

/-! ## Reserved codes, errors and frames -/

/-- R71, R216: a command with a reserved code ends with `ILLEGAL_OP`, whatever its other fields are, and changes nothing. -/
def Obligations.ReservedCodesAnswerIllegalOp : Prop :=
  (∀ i ∈ [Instr.reserved9, .reservedA, .reservedB, .reservedC, .reservedD, .reservedE, .reservedF], ∀ s : State,
    exec i s = .next { s with rsp := some { status := .illegalOp }, tx := none }) ∧
  (∀ (p : CmdPort) (s : State), 9 ≤ p.op.toNat →
    exec (decodeCommand p) s = .next { s with rsp := some { status := .illegalOp }, tx := none })

/-- R210, R217: on every status but `OK` the response carries the status alone, no register changes and no link transaction is
made: the command has had no effect but its response. -/
def Obligations.ErrorsChangeNothing : Prop :=
  ∀ (i : Instr) (s t : State) (r : Response), exec i s = .next t → t.rsp = some r → r.status ≠ .ok →
    t = { s with rsp := some { status := r.status }, tx := none }

/-- R210, R211, R213, R214, R215, R216: which command raises which error status, and exactly when. -/
def Obligations.EachErrorHasItsCause : Prop :=
  ∀ (i : Instr) (s t : State) (r : Response), s.config.Legal → i.wellFormed s.config = true → exec i s = .next t →
    t.rsp = some r →
    (r.status = .frameTruncated ↔
      ∃ buf blen, i = .decode buf blen ∧ blen ≤ s.config.bufCap ∧
        (blen < 2 ∨ (128 ≤ (buf.getD 0 0).toNat ∧ blen < (buf.getD 0 0).toNat % 64 + 2))) ∧
    (r.status = .lengthConstraint ↔
      ∃ seq plen buf, 63 < plen.toNat ∧
        ((∃ integ, i = .encode .data seq plen buf integ) ∨ i = .compute .data seq plen buf ∨
          ∃ integ, i = .verify .data seq plen buf integ)) ∧
    (r.status = .illegalOp ↔
      i ∈ [Instr.reserved9, .reservedA, .reservedB, .reservedC, .reservedD, .reservedE, .reservedF]) ∧
    (r.status = .illegalReg ↔ i = .cfgrd 3 ∨ ∃ w, i = .cfgwr 3 w) ∧
    (r.status = .illegalLen ↔
      ∃ buf blen, s.config.bufCap < blen ∧ (i = .decode buf blen ∨ ∃ dest, i = .send buf blen dest))

/-- R6, R33: which command touches which state, for every command: only SEND and a write of index 2 change `LFSR`, only a write
of its own index changes a threshold, only SEND makes a link transaction, and no command changes the build or the inputs. -/
def Obligations.EachRegisterHasItsWriters : Prop :=
  ∀ (i : Instr) (s t : State), exec i s = .next t →
    (t.lfsr ≠ s.lfsr → (∃ buf blen dest, i = .send buf blen dest ∧ blen ≤ s.config.bufCap) ∨ ∃ w, i = .cfgwr 2 w) ∧
    (t.corruptT ≠ s.corruptT → ∃ w, i = .cfgwr 0 w) ∧
    (t.dropT ≠ s.dropT → ∃ w, i = .cfgwr 1 w) ∧
    (t.tx ≠ none → ∃ buf blen dest, i = .send buf blen dest ∧ blen ≤ s.config.bufCap) ∧
    t.config = s.config ∧ t.inputs = s.inputs

/-- R6, R25: the commands but SEND, CFGWR and CFGRD read their operands only: on two blocks of one build they answer alike,
whatever the registers hold. -/
def Obligations.PureCommandsReadNoRegister : Prop :=
  ∀ (i : Instr) (s₁ s₂ t₁ t₂ : State), (∀ buf blen dest, i ≠ .send buf blen dest) → (∀ reg w, i ≠ .cfgwr reg w) →
    (∀ reg, i ≠ .cfgrd reg) → s₁.config = s₂.config → exec i s₁ = .next t₁ → exec i s₂ = .next t₂ →
    t₁.rsp = t₂.rsp ∧ t₁.tx = none ∧ t₂.tx = none

/-- R48: every command but SEND is idempotent: repeated at once with the same operands it gives the same response and leaves
the same state. -/
def Obligations.EveryCommandButSendIsIdempotent : Prop :=
  ∀ (i : Instr) (s t : State), (∀ buf blen dest, i ≠ .send buf blen dest) → exec i s = .next t → exec i t = .next t

/-- R30: the ranges of the response fields: ENCODE answers 2 to 65 bytes; DECODE's `rsp_plen` is the number of payload bytes, at
most 63 and 0 for an ACK, and `rsp_used` is 2 to 65 and never above the length of its buffer. -/
def Obligations.ResponseFieldRanges : Prop :=
  (∀ (kind : Kind) (seq : SeqBit) (plen : Byte) (buf : List Byte) (integ : Byte) (s t : State) (r : Response)
    (bytes : List Byte), exec (.encode kind seq plen buf integ) s = .next t → t.rsp = some r → r.buf = some bytes →
    2 ≤ bytes.length ∧ bytes.length ≤ 65) ∧
  (∀ (buf : List Byte) (blen : Nat) (s t : State) (r : Response), exec (.decode buf blen) s = .next t →
    t.rsp = some r → r.status = .ok →
    ∃ (kind : Kind) (payload : List Byte) (plen : BitVec 6) (used : BitVec 7),
      r.kind = some kind ∧ r.buf = some payload ∧ r.plen = some plen ∧ r.used = some used ∧
      plen.toNat = payload.length ∧ payload.length ≤ 63 ∧ (kind = .ack → payload = []) ∧
      used.toNat = payload.length + 2 ∧ used.toNat ≤ blen)

/-- R30, R210: on the wires `rsp_valid` is 1 and `rsp_status` is the code of the status, 0 for `OK` and 1 to 5 for the five
errors, one by one, so 6 and 7 are never driven; on an error every other field is zero. -/
def Obligations.ErrorWiresAreZero : Prop :=
  ∀ (i : Instr) (s t : State) (r : Response) (undriven : ResponseWires), exec i s = .next t → t.rsp = some r →
    (r.wires undriven).valid = true ∧
    (r.status = .ok → (r.wires undriven).status = 0) ∧
    (r.status = .frameTruncated → (r.wires undriven).status = 1) ∧
    (r.status = .lengthConstraint → (r.wires undriven).status = 2) ∧
    (r.status = .illegalOp → (r.wires undriven).status = 3) ∧
    (r.status = .illegalReg → (r.wires undriven).status = 4) ∧
    (r.status = .illegalLen → (r.wires undriven).status = 5) ∧
    (r.status ≠ .ok → r.wires undriven =
      { valid := true, status := (r.wires undriven).status, buf := [], kind := false, seq := false, plen := 0, integ := 0
        used := 0, bool := false, rdata := 0 })

/-! ## The environment: two peers and the transport -/

/-- R176, R177: `submit` of at most 63 bytes while `Idle` seals the frame, hands it to SEND, stores its bytes, arms the timer and
awaits the acknowledgment; a longer payload is reported and nothing is sent; while awaiting the call is refused (I22). Each
clause gives the block afterwards whole: after the one SEND, whose response is the last, `LFSR` has advanced by 32 steps and
nothing else but the ports has changed; where the payload is refused, by COMPUTE or by the host itself (above 255 bytes: log
entry 9), no register has changed. -/
def Obligations.SubmitOutcome : Prop :=
  ∀ (x : Sender) (peer : Dest) (payload : List Byte), x.block.config.Legal →
    let frame := sealedBytes x.block.config .data x.number payload
    let sent : Option LinkTx := if x.block.dropFires then none else some { bytes := x.block.outgoing frame, dest := peer }
    (x.phase = .idle → payload.length ≤ 63 → x.submit peer payload =
      { sender :=
          { block := { x.block with lfsr := lfsrSteps 32 x.block.lfsr, rsp := some { status := .ok }, tx := sent }
            number := x.number, phase := .awaitingAck frame, timerArmed := true }
        link := sent
        report := none }) ∧
    (x.phase = .idle → 63 < payload.length → payload.length ≤ 255 → x.submit peer payload =
      { sender := { x with block := { x.block with rsp := some { status := .lengthConstraint }, tx := none } }
        link := none, report := some .lengthConstraint }) ∧
    (x.phase = .idle → 255 < payload.length → x.submit peer payload =
      { sender := x, link := none, report := some .lengthConstraint }) ∧
    (∀ last, x.phase = .awaitingAck last → x.submit peer payload = { sender := x, report := some .notIdle })

/-- R180: on timer expiry the identical stored bytes are handed to SEND again, with the same sequence bit and the timer rearmed;
what reaches the link is what this SEND's samples make of them, and of the block `LFSR` alone changes, by 32 steps, beside the
ports. With the timer not armed nothing happens. -/
def Obligations.TimeoutResendsTheStoredBytes : Prop :=
  ∀ (x : Sender) (peer : Dest),
    (∀ frame, x.phase = .awaitingAck frame → x.timerArmed = true → frame.length ≤ x.block.config.bufCap →
      let sent : Option LinkTx := if x.block.dropFires then none else some { bytes := x.block.outgoing frame, dest := peer }
      x.timeout peer =
        { sender :=
            { x with
              block := { x.block with lfsr := lfsrSteps 32 x.block.lfsr, rsp := some { status := .ok }, tx := sent } }
          link := sent
          report := none }) ∧
    (x.timerArmed = false → x.timeout peer = { sender := x })

/-- R178, R179, R181: while the sender awaits an acknowledgment, one whose number matches and whose marker verifies is always
accepted: the bit toggles, the timer is cancelled, the sender is `Idle` and success is reported. On anything else, a frame of
the other kind or number, a marker that does not verify, bytes that do not decode, nothing changes but the ports of the block,
nothing is sent and nothing reported: phase, stored frame, bit and timer stay, and there is no early retransmission. While
`Idle` bytes are discarded. So no event of the closed system changes the bit but the arrival of such an acknowledgment. That
bytes longer than `BUFCAP` are among those that do not decode is the model's choice (log entry 14). -/
def Obligations.SenderTogglesOnlyOnMatchingAcknowledgment : Prop :=
  (∀ (x : Sender) (d last : List Byte) (f : Opened), x.phase = .awaitingAck last →
    (openFrame d x.block).2 = some f → f.kind = .ack → f.seq = x.number → f.valid = true →
    x.receive d =
      { sender :=
          { block := { x.block with rsp := some { status := .ok, seq := some (toggleBit x.number) }, tx := none }
            number := toggleBit x.number, phase := .idle, timerArmed := false }
        link := none, report := some .success }) ∧
  (∀ (x : Sender) (d last : List Byte), x.phase = .awaitingAck last →
    (∀ f, (openFrame d x.block).2 = some f → f.kind ≠ .ack ∨ f.seq ≠ x.number ∨ f.valid = false) →
    ∃ r, x.receive d =
      { sender := { x with block := { x.block with rsp := r, tx := none } }, link := none, report := none }) ∧
  (∀ (x : Sender) (d : List Byte), x.phase = .idle → x.receive d = { sender := x, link := none, report := none }) ∧
  (∀ (y : System) (e : Event), (y.handle e).sender.number ≠ y.sender.number →
    ∃ src d rest last f, e = .arrive src y.config.senderAddr ∧ y.flow src y.config.senderAddr = d :: rest ∧
      y.sender.phase = .awaitingAck last ∧
      (openFrame d y.sender.block).2 = some f ∧ f.kind = .ack ∧ f.seq = y.sender.number ∧ f.valid = true ∧
      (y.handle e).sender.number = toggleBit y.sender.number ∧ (y.handle e).sender.phase = .idle ∧
      (y.handle e).reports = y.reports ++ [.success])

/-- R184, R185, R188: a data unit that verifies is answered with the sealed acknowledgment of its own number, handed to SEND,
whose samples decide what reaches the link. With the expected number its payload is delivered and `expected` toggles after the
SEND; with the other number, a duplicate, nothing is delivered and `expected` stays. Of the block `LFSR` alone changes, by the 32
steps of the one SEND, beside the ports. So the same data unit twice gives one delivery and two acknowledgments handed to SEND;
with the thresholds zero both go out as they are. -/
def Obligations.DuplicateIsDeliveredOnce : Prop :=
  (∀ (x : Receiver) (policy : RxBadPolicy) (peer : Dest) (d : List Byte) (f : Opened), x.block.config.Legal →
    (openFrame d x.block).2 = some f → f.kind = .data → f.valid = true →
    let ack := sealedBytes x.block.config .ack f.seq []
    let sent : Option LinkTx := if x.block.dropFires then none else some { bytes := x.block.outgoing ack, dest := peer }
    (f.seq = x.expected → x.receive policy peer d =
      { receiver :=
          { block :=
              { x.block with
                lfsr := lfsrSteps 32 x.block.lfsr
                rsp := some { status := .ok, seq := some (toggleBit x.expected) }
                tx := none }
            expected := toggleBit x.expected, delivered := x.delivered ++ [f.payload] }
        link := sent }) ∧
    (f.seq ≠ x.expected → x.receive policy peer d =
      { receiver :=
          { x with block := { x.block with lfsr := lfsrSteps 32 x.block.lfsr, rsp := some { status := .ok }, tx := sent } }
        link := sent })) ∧
  (∀ (x : Receiver) (policy : RxBadPolicy) (peer : Dest) (payload : List Byte), x.block.config.Legal →
    payload.length ≤ 63 →
    let d := sealedBytes x.block.config .data x.expected payload
    let first := x.receive policy peer d
    let second := first.receiver.receive policy peer d
    let ack := sealedBytes x.block.config .ack x.expected []
    let sentBy (b : State) : Option LinkTx := if b.dropFires then none else some { bytes := b.outgoing ack, dest := peer }
    first.receiver.delivered = x.delivered ++ [payload] ∧ first.receiver.expected = toggleBit x.expected ∧
    second.receiver.delivered = x.delivered ++ [payload] ∧ second.receiver.expected = toggleBit x.expected ∧
    first.link = sentBy x.block ∧ first.receiver.block.lfsr = lfsrSteps 32 x.block.lfsr ∧
    second.link = sentBy first.receiver.block ∧ second.receiver.block.lfsr = lfsrSteps 32 first.receiver.block.lfsr ∧
    (x.block.corruptT = 0 → x.block.dropT = 0 →
      first.link = some { bytes := ack, dest := peer } ∧ second.link = some { bytes := ack, dest := peer }))

/-- R186, R187: bytes that do not decode, an acknowledgment, and a data unit whose marker does not verify deliver nothing and
change nothing at the receiver. Under `SILENT`, and for anything but a data unit, nothing is sent: no register of the block
changes. Under `REACK_PREV` a bad data unit is answered: the sealed acknowledgment for `toggle(expected)` is handed to SEND,
whose samples decide what reaches the link. That bytes longer than `BUFCAP` are among those that do not decode, and are dropped,
is the model's choice (log entry 14). -/
def Obligations.BadFrameIsNotDelivered : Prop :=
  ∀ (x : Receiver) (policy : RxBadPolicy) (peer : Dest) (d : List Byte),
    (∀ f, (openFrame d x.block).2 = some f → f.kind = .data → f.valid = false) →
    let answer := x.receive policy peer d
    (answer.receiver.delivered = x.delivered ∧ answer.receiver.expected = x.expected) ∧
    ((policy = .silent ∨ ∀ f, (openFrame d x.block).2 = some f → f.kind = .ack) →
      answer.link = none ∧ ∃ r, answer.receiver.block = { x.block with rsp := r, tx := none }) ∧
    (policy = .reackPrev → x.block.config.Legal → ∀ f, (openFrame d x.block).2 = some f → f.kind = .data →
      let ack := sealedBytes x.block.config .ack (toggleBit x.expected) []
      let sent : Option LinkTx := if x.block.dropFires then none else some { bytes := x.block.outgoing ack, dest := peer }
      answer.link = sent ∧ answer.receiver.block =
        { x.block with lfsr := lfsrSteps 32 x.block.lfsr, rsp := some { status := .ok }, tx := sent })

/-- R181, R188, R190: the protocol's headline. Whatever the thresholds, the seeds, the integrity mode and the policy, for every
list of events, over a transport that keeps the order between a pair of endpoints and may even lose and duplicate: the
application at the receiver has been given, in order and each once, the payloads submitted, all but perhaps the last; and what
was reported a success has been delivered. It rests on the model's choices: a sender that never gives up (log entry 9, unsafe)
and an ordered transport on which no other host speaks to the two peers (log entry 10, unsafe). -/
def Obligations.ExactlyOnceInOrderDelivery : Prop :=
  ∀ (config : SystemConfig) (bs br : State) (events : List Event), config.Legal → bs.config.Legal → br.config.Legal →
    (∀ e ∈ events, e.LeavesStreamAlone config) →
    let y := (System.start config bs br).run events
    y.receiver.delivered <+: y.submitted ∧ y.submitted.length ≤ y.receiver.delivered.length + 1 ∧
    y.reports.count .success ≤ y.receiver.delivered.length

/-- R175, R177, R178, R184: through a transparent channel a submitted payload is delivered, acknowledged and reported. -/
def Obligations.TransparentChannelDelivers : Prop :=
  ∀ (config : SystemConfig) (bs br : State) (payload : List Byte), config.Legal → bs.config.Legal → br.config = bs.config →
    bs.corruptT = 0 → bs.dropT = 0 → br.corruptT = 0 → br.dropT = 0 → payload.length ≤ 63 →
    let y := (System.start config bs br).run
      [.submit payload, .arrive .sender config.receiverAddr, .arrive .receiver config.senderAddr]
    y.receiver.delivered = [payload] ∧ y.reports = [.success] ∧ y.sender.phase = .idle ∧ y.sender.number = .one ∧
    y.receiver.expected = .one ∧ y.transit = []

/-- The fairness clause of R253 that the block itself owes: a command presented is eventually performed. Whatever stands before it
in the list of inputs (log entry 1), after that many steps it is the next input, and the step after performs it. -/
def Obligations.CommandPresentedIsEventuallyPerformed : Prop :=
  ∀ (s : State) (before rest : List HostInput) (inp : HostInput) (i : Instr),
    s.inputs = before ++ inp :: rest → decodeInput inp = some i →
    ∃ t : State, Sys2Proof.core.run before.length s = .next t ∧ t.inputs = inp :: rest ∧
      Sys2Proof.core.run (before.length + 1) s = exec i { t with inputs := rest }

/-- R176 to R190, as an invariant that every event keeps, and that the start meets on any two legal blocks: the alternating bit.
While the sender is `Idle` all that was submitted is delivered and reported, and what is in transit is old; while it awaits, it
holds the sealed frame of the last payload submitted, and in each direction old frames come before new ones, the new
acknowledgments only where the payload is delivered. The transport keeps order and no other host speaks to the peers (log entry
10); the sender never gives up (log entry 9). -/
def Obligations.EveryEventKeepsTheAlternatingBit : Prop :=
  (∀ (y : System) (e : Event), y.Inv → e.LeavesStreamAlone y.config → (y.handle e).Inv) ∧
  (∀ (config : SystemConfig) (bs br : State), config.Legal → bs.config.Legal → br.config.Legal →
    (System.start config bs br).Inv)

/-- R145, R253: liveness. Over the default transport, two blocks of one build, with R253's fairness and the fairness of the draws
that R145 asks for: from any moment on, the sender comes to rest with every payload submitted so far delivered, in order and
each once. The sender never gives up (log entry 9); no other host speaks to the peers (log entry 10). -/
def Obligations.FairRunDeliversEverySubmission : Prop :=
  ∀ (config : SystemConfig) (bs br : State) (events : Nat → Event), config.Legal → config.transport = .reliable →
    bs.config.Legal → br.config = bs.config → (∀ n, (events n).LeavesStreamAlone config) →
    (System.start config bs br).Fair events → (System.start config bs br).FairDraws events →
    ∀ n, ∃ m, n ≤ m ∧ ((System.start config bs br).after events m).sender.phase = .idle ∧
      ((System.start config bs br).after events m).receiver.delivered = ((System.start config bs br).after events n).submitted

/-- R31, R189, R190: the transport. Every link transaction goes into transit behind all that was handed over before, with who handed
it over and its destination: those of the peers' own SENDs in `submit`, on a timeout and in the answer to an arrival, those of
any other host of either block, and those of other endpoints. An arrival takes the oldest datagram of its pair of endpoints out
of transit, once, and gives it unaltered to the endpoint it is addressed to; every other flow stays. A reliable transport
neither loses nor duplicates; a lossy one loses or repeats the oldest of a pair and nothing else. Nothing but what is named
changes. That a peer receives what is addressed to it whoever sent it, and the event list itself, are the model's choice (log
entry 10). -/
def Obligations.TransportDeliversInOrder : Prop :=
  let datagrams (src : Endpoint) (tx : Option LinkTx) : List Datagram :=
    (tx.map fun x => { src := src, dest := x.dest, bytes := x.bytes }).toList
  -- handing over
  (∀ (y : System) (payload : List Byte),
    let r := y.sender.submit y.config.receiverAddr payload
    y.handle (.submit payload) =
      { y with
        sender := r.sender
        transit := y.transit ++ datagrams .sender r.link
        reports := y.reports ++ r.report.toList
        submitted := y.submitted ++ (if r.report = none then [payload] else []) }) ∧
  (∀ y : System,
    let r := y.sender.timeout y.config.receiverAddr
    y.handle .timeout =
      { y with
        sender := r.sender, transit := y.transit ++ datagrams .sender r.link, reports := y.reports ++ r.report.toList }) ∧
  (∀ (y : System) (inp : HostInput),
    let b := y.sender.block.feed inp
    y.handle (.atSenderBlock inp) =
      { y with sender := { y.sender with block := b }, transit := y.transit ++ datagrams .sender b.tx }) ∧
  (∀ (y : System) (inp : HostInput),
    let b := y.receiver.block.feed inp
    y.handle (.atReceiverBlock inp) =
      { y with receiver := { y.receiver with block := b }, transit := y.transit ++ datagrams .receiver b.tx }) ∧
  (∀ (y : System) (addr : Dest) (x : LinkTx),
    y.handle (.sentByOther addr x) =
      { y with transit := y.transit ++ [{ src := .other addr, dest := x.dest, bytes := x.bytes }] }) ∧
  -- arriving
  (∀ (y : System) (src : Endpoint) (dest : Dest), y.flow src dest = [] → y.handle (.arrive src dest) = y) ∧
  (∀ (y : System) (src : Endpoint) (dest : Dest) (d : List Byte) (rest : List (List Byte)), y.flow src dest = d :: rest →
    ∃ left : List Datagram, left.length + 1 = y.transit.length ∧ flow src dest left = rest ∧
      (∀ src' dest', ¬(src' = src ∧ dest' = dest) → flow src' dest' left = y.flow src' dest') ∧
      (dest = y.config.receiverAddr →
        let r := y.receiver.receive y.config.rxBadPolicy y.config.senderAddr d
        y.handle (.arrive src dest) = { y with receiver := r.receiver, transit := left ++ datagrams .receiver r.link }) ∧
      (dest = y.config.senderAddr → dest ≠ y.config.receiverAddr →
        let r := y.sender.receive d
        y.handle (.arrive src dest) =
          { y with
            sender := r.sender, transit := left ++ datagrams .sender r.link, reports := y.reports ++ r.report.toList }) ∧
      (dest ≠ y.config.senderAddr → dest ≠ y.config.receiverAddr →
        y.handle (.arrive src dest) =
          { y with transit := left, elsewhere := y.elsewhere ++ [{ src := src, dest := dest, bytes := d }] })) ∧
  -- losing and duplicating
  (∀ (y : System) (src : Endpoint) (dest : Dest), y.config.transport = .reliable →
    y.handle (.lose src dest) = y ∧ y.handle (.duplicate src dest) = y) ∧
  (∀ (y : System) (src : Endpoint) (dest : Dest), y.config.transport = .lossy →
    ∃ lost twice : List Datagram,
      y.handle (.lose src dest) = { y with transit := lost } ∧ y.handle (.duplicate src dest) = { y with transit := twice } ∧
      flow src dest lost = (y.flow src dest).tail ∧
      flow src dest twice = (y.flow src dest).head?.toList ++ y.flow src dest ∧
      ∀ src' dest', ¬(src' = src ∧ dest' = dest) →
        flow src' dest' lost = y.flow src' dest' ∧ flow src' dest' twice = y.flow src' dest')
end

