-- ==== Sys2Proof/Laws/Decode.lean ====
section
/-! SUPPORT. The fields of a header byte, and what the frame decoder answers. -/

namespace Sys2Proof

@[simp] theorem Kind.ofBit_bit (k : Kind) : Kind.ofBit k.bit = k := by cases k <;> rfl
@[simp] theorem SeqBit.ofBit_bit (q : SeqBit) : SeqBit.ofBit q.bit = q := by cases q <;> rfl

/-- The kind comes back out of a packed header. -/
@[simp] theorem headerKind_packHeader (k : Kind) (q : SeqBit) (low : BitVec 6) :
    headerKind (packHeader k q low) = k := by
  simp [headerKind, packHeader, BitVec.getElem_cons]

/-- The sequence bit comes back out of a packed header. -/
@[simp] theorem headerSeq_packHeader (k : Kind) (q : SeqBit) (low : BitVec 6) :
    headerSeq (packHeader k q low) = q := by
  simp [headerSeq, packHeader, BitVec.getElem_cons]

/-- The six low bits come back out of a packed header. -/
@[simp] theorem headerLow_packHeader (k : Kind) (q : SeqBit) (low : BitVec 6) :
    headerLow (packHeader k q low) = low := by
  apply BitVec.eq_of_getLsbD_eq
  intro i hi
  have h1 : i ≠ 7 := by omega
  have h2 : i ≠ 6 := by omega
  simp [headerLow, packHeader, BitVec.getLsbD_cons, hi, h1, h2]

/-- A header is its three fields, packed. -/
theorem packHeader_fields (h : Byte) : packHeader (headerKind h) (headerSeq h) (headerLow h) = h := by
  revert h; decide

/-- What the decoder answers on a buffer of at least two bytes, by the header's discriminator. -/
theorem parseFrame_cons (h second : Byte) (rest : List Byte) :
    parseFrame (h :: second :: rest) =
      match headerKind h with
      | .ack => .ok (.acknowledgment (headerSeq h) second, 2)
      | .data =>
        if (headerLow h).toNat + 2 ≤ (h :: second :: rest).length then
          .ok (.dataUnit (headerSeq h) ((second :: rest).take (headerLow h).toNat)
            ((second :: rest).getD (headerLow h).toNat 0), (headerLow h).toNat + 2)
        else .error .frameTruncated := by
  simp only [parseFrame]
  cases headerKind h <;> simp

/-- The decoder rejects every buffer shorter than two bytes. -/
theorem parseFrame_short (bytes : List Byte) (h : bytes.length < 2) : parseFrame bytes = .error .frameTruncated := by
  match bytes, h with
  | [], _ => rfl
  | [_], _ => rfl
  | _ :: _ :: tail, h => exact absurd h (by simp)

/-- A datagram handed to the decoder is never a SEND. -/
theorem decodeDatagram_ne_send (bytes buf : List Byte) (blen : Nat) (dest : Dest) : decodeDatagram bytes ≠ .send buf blen dest := by
  unfold decodeDatagram decodeFrameRow
  cases parseFrame bytes with
  | error e => cases e; simp
  | ok r =>
    obtain ⟨f, used⟩ := r
    by_cases h : used = bytes.length
    · cases f <;> simp [h]
    · simp [h]

/-- A presented command is a SEND only with the code of SEND, and then the destination is the port's. -/
theorem decodeCommand_eq_send {p : CmdPort} {buf : List Byte} {blen : Nat} {dest : Dest} (h : decodeCommand p = .send buf blen dest) :
    p.op = 6 ∧ p.buf = buf ∧ p.blen = blen ∧ p.dest = dest := by
  unfold decodeCommand at h
  split at h <;> simp at h
  rename_i ho
  exact ⟨BitVec.eq_of_toNat_eq ho, h⟩

end Sys2Proof
end

