-- ==== Sys2Proof/Laws/Operands.lean ====
section
/-! SUPPORT. What the operand forms give: cutting a buffer operand to its length, and inverting a bit of the last byte. -/

namespace Sys2Proof.Machine

@[simp] theorem takeBytes_length (n : Nat) (buf : List Byte) : (takeBytes n buf).length = n := by
  induction n generalizing buf with
  | zero => rfl
  | succ n ih => cases buf <;> simp [takeBytes, ih]

/-- Byte `i` below the length is what `cmd_buf` carries there. -/
theorem takeBytes_getD (n : Nat) (buf : List Byte) (i : Nat) (h : i < n) :
    (takeBytes n buf).getD i 0 = buf.getD i 0 := by
  induction n generalizing buf i with
  | zero => omega
  | succ n ih =>
    cases buf with
    | nil =>
      cases i with
      | zero => rfl
      | succ i => simpa [takeBytes] using ih [] i (by omega)
    | cons b bs =>
      cases i with
      | zero => rfl
      | succ i => simpa [takeBytes] using ih bs i (by omega)

/-- A length within the listed bytes takes a prefix of them. -/
theorem takeBytes_eq_take (n : Nat) (buf : List Byte) (h : n ≤ buf.length) : takeBytes n buf = buf.take n := by
  induction n generalizing buf with
  | zero => simp [takeBytes]
  | succ n ih =>
    cases buf with
    | nil => simp at h
    | cons b bs => simp [takeBytes, ih bs (by simpa using h)]

/-- The bytes of a list, taken at its own length. -/
@[simp] theorem takeBytes_self (buf : List Byte) : takeBytes buf.length buf = buf := by
  simp [takeBytes_eq_take]

@[simp] theorem flipLastBit_length (b : Nat) (bytes : List Byte) :
    (flipLastBit b bytes).length = bytes.length := by
  induction bytes with
  | nil => rfl
  | cons x rest ih => cases rest with
    | nil => rfl
    | cons y rest => simpa [flipLastBit] using ih

/-- Only the last byte changes, and by one bit. -/
theorem flipLastBit_append (b : Nat) (front : List Byte) (last : Byte) :
    flipLastBit b (front ++ [last]) = front ++ [last ^^^ (1#8 <<< b)] := by
  induction front with
  | nil => rfl
  | cons x front ih => cases front with
    | nil => rfl
    | cons y front => simpa [flipLastBit] using ih

end Sys2Proof.Machine
end

