-- ==== Sys2Proof/Laws/State.lean ====
section
/-! SUPPORT. One lemma per field per update of the state, so that later proofs need not unfold an update. -/

namespace Sys2Proof.Machine

variable (s : State) (r : Option Response) (t : Option LinkTx)

@[simp] theorem State.drive_config : (s.drive r t).config = s.config := rfl
@[simp] theorem State.drive_corruptT : (s.drive r t).corruptT = s.corruptT := rfl
@[simp] theorem State.drive_dropT : (s.drive r t).dropT = s.dropT := rfl
@[simp] theorem State.drive_lfsr : (s.drive r t).lfsr = s.lfsr := rfl
@[simp] theorem State.drive_rsp : (s.drive r t).rsp = r := rfl
@[simp] theorem State.drive_tx : (s.drive r t).tx = t := rfl
@[simp] theorem State.drive_inputs : (s.drive r t).inputs = s.inputs := rfl

/-- Driving the ports twice leaves what the second drove. -/
@[simp] theorem State.drive_drive (r' : Option Response) (t' : Option LinkTx) :
    (s.drive r t).drive r' t' = s.drive r' t' := rfl

@[simp] theorem State.advanceLfsr_config : s.advanceLfsr.config = s.config := rfl
@[simp] theorem State.advanceLfsr_corruptT : s.advanceLfsr.corruptT = s.corruptT := rfl
@[simp] theorem State.advanceLfsr_dropT : s.advanceLfsr.dropT = s.dropT := rfl
@[simp] theorem State.advanceLfsr_lfsr : s.advanceLfsr.lfsr = lfsrSteps Config.stepsPerSend s.lfsr := rfl
@[simp] theorem State.advanceLfsr_rsp : s.advanceLfsr.rsp = s.rsp := rfl
@[simp] theorem State.advanceLfsr_tx : s.advanceLfsr.tx = s.tx := rfl
@[simp] theorem State.advanceLfsr_inputs : s.advanceLfsr.inputs = s.inputs := rfl

@[simp] theorem State.resetRegisters_config : s.resetRegisters.config = s.config := rfl
@[simp] theorem State.resetRegisters_corruptT : s.resetRegisters.corruptT = 0#17 := rfl
@[simp] theorem State.resetRegisters_dropT : s.resetRegisters.dropT = 0#17 := rfl
@[simp] theorem State.resetRegisters_lfsr : s.resetRegisters.lfsr = Config.lfsrReset := rfl
@[simp] theorem State.resetRegisters_rsp : s.resetRegisters.rsp = none := rfl
@[simp] theorem State.resetRegisters_tx : s.resetRegisters.tx = none := rfl
@[simp] theorem State.resetRegisters_inputs : s.resetRegisters.inputs = s.inputs := rfl

end Sys2Proof.Machine
end

