-- ==== Sys2Proof/Laws/Ops.lean ====
section
/-! SUPPORT. One lemma per shared operation that says everything it can do. -/

namespace Sys2Proof.Machine

/-- An operation that ends with a response leaves the state driven with it, and nothing else changed. -/
theorem finish_next {r : Response} {s t : State} (h : finish r s = .next t) : t = s.drive (some r) none := by
  cases h; rfl

/-- The error path leaves the status alone in the response, and nothing else changed. -/
theorem raise_next {e : Status} {s t : State} (h : raise e s = .next t) :
    t = s.drive (some { status := e }) none := by
  cases h; rfl

/-- What the frame decoder's operation can answer: an illegal length, a rejection, or a frame. -/
theorem decodeBuffer_cases (buf : List Byte) (blen : Nat) (s : State) :
    (s.config.bufCap < blen ∧ decodeBuffer buf blen s = raise .illegalLen s) ∨
    (blen ≤ s.config.bufCap ∧ parseFrame (takeBytes blen buf) = .error .frameTruncated ∧
      decodeBuffer buf blen s = raise .frameTruncated s) ∨
    (∃ f used, blen ≤ s.config.bufCap ∧ parseFrame (takeBytes blen buf) = .ok (f, used) ∧
      decodeBuffer buf blen s = finish (decodeResponse f used) s) := by
  unfold decodeBuffer lengthIllegal
  by_cases hl : s.config.bufCap < blen
  · exact .inl ⟨hl, by simp [hl]⟩
  · have hle : blen ≤ s.config.bufCap := by omega
    match hp : parseFrame (takeBytes blen buf) with
    | .error .frameTruncated => exact .inr (.inl ⟨hle, rfl, by simp [hl, statusOfDecodeError]⟩)
    | .ok (f, used) => exact .inr (.inr ⟨f, used, hle, rfl, by simp [hl]⟩)

/-- What a register read can answer. -/
theorem readRegister_cases (reg : RegIndex) (s : State) :
    (reg = 0 ∧ readRegister reg s = some (s.corruptT.setWidth 32)) ∨
    (reg = 1 ∧ readRegister reg s = some (s.dropT.setWidth 32)) ∨
    (reg = 2 ∧ readRegister reg s = some s.lfsr) ∨
    (reg = 3 ∧ readRegister reg s = none) := by
  obtain h | h | h | h : reg = 0 ∨ reg = 1 ∨ reg = 2 ∨ reg = 3 := by revert reg; decide
  all_goals subst h; simp [readRegister]

/-- What a register write can do: one register, or nothing for the reserved index. -/
theorem writeRegister_cases (reg : RegIndex) (w : Word) (s : State) :
    (reg = 0 ∧ writeRegister reg w s = some { s with corruptT := clamp17 w }) ∨
    (reg = 1 ∧ writeRegister reg w s = some { s with dropT := clamp17 w }) ∨
    (reg = 2 ∧ writeRegister reg w s = some { s with lfsr := seedValue w }) ∨
    (reg = 3 ∧ writeRegister reg w s = none) := by
  obtain h | h | h | h : reg = 0 ∨ reg = 1 ∨ reg = 2 ∨ reg = 3 := by revert reg; decide
  all_goals subst h; simp [writeRegister]

/-- What taking the next input can find: nothing presented, a reset, or a command. -/
theorem fetch_cases (s : State) :
    (s.inputs = [] ∧ fetch s = .quiet (s.drive none none)) ∨
    (∃ rest, s.inputs = .idle :: rest ∧ fetch s = .quiet ({ s with inputs := rest }.drive none none)) ∨
    (∃ c rest, s.inputs = .reset c :: rest ∧ fetch s = .quiet { s with inputs := rest }.resetRegisters) ∨
    (∃ inp rest i, s.inputs = inp :: rest ∧ decodeInput inp = some i ∧
      fetch s = .issue i { s with inputs := rest }) := by
  unfold fetch
  match h : s.inputs with
  | [] => exact .inl ⟨rfl, rfl⟩
  | .idle :: rest => exact .inr (.inl ⟨rest, rfl, rfl⟩)
  | .reset c :: rest => exact .inr (.inr (.inl ⟨c, rest, rfl, rfl⟩))
  | .command p :: rest => exact .inr (.inr (.inr ⟨_, rest, _, rfl, rfl, rfl⟩))
  | .datagram b :: rest => exact .inr (.inr (.inr ⟨_, rest, _, rfl, rfl, rfl⟩))

end Sys2Proof.Machine
end

