-- ==== Sys2Proof/Laws/Exec.lean ====
section
/-! SUPPORT. Everything an instruction can do to the state, said once. -/

namespace Sys2Proof.Machine

/-- A decoder answer leaves the state driven with some response. -/
theorem decodeBuffer_drives (buf : List Byte) (blen : Nat) (s : State) :
    ∃ r, decodeBuffer buf blen s = .next (s.drive (some r) none) := by
  obtain ⟨_, h⟩ | ⟨_, _, h⟩ | ⟨f, used, _, _, h⟩ := decodeBuffer_cases buf blen s
  · exact ⟨_, h⟩
  · exact ⟨_, h⟩
  · exact ⟨_, h⟩

/-- What an instruction can do: drive a response; write one register and answer `OK`; or perform a SEND. -/
theorem exec_effect (i : Instr) (s : State) :
    (∃ r, exec i s = .next (s.drive (some r) none)) ∨
    (∃ reg w u, i = .cfgwr reg w ∧ writeRegister reg w s = some u ∧
      exec i s = .next (u.drive (some { status := .ok }) none)) ∨
    (∃ buf blen dest, i = .send buf blen dest ∧ blen ≤ s.config.bufCap ∧
      exec i s = .next (s.advanceLfsr.drive (some { status := .ok }) (s.emitted (takeBytes blen buf) dest))) := by
  cases i with
  | nop => exact .inl ⟨_, rfl⟩
  | encode kind seq plen buf integ =>
    cases h : payloadTooLong kind plen
    · exact .inl ⟨_, by simp [exec, execEncode, h]; rfl⟩
    · exact .inl ⟨_, by simp [exec, execEncode, h]; rfl⟩
  | decode buf blen => exact .inl (decodeBuffer_drives buf blen s)
  | compute kind seq plen buf =>
    cases h : payloadTooLong kind plen
    · exact .inl ⟨_, by simp [exec, execCompute, h]; rfl⟩
    · exact .inl ⟨_, by simp [exec, execCompute, h]; rfl⟩
  | verify kind seq plen buf integ =>
    cases h : payloadTooLong kind plen
    · exact .inl ⟨_, by simp [exec, execVerify, h]; rfl⟩
    · exact .inl ⟨_, by simp [exec, execVerify, h]; rfl⟩
  | toggle seq => exact .inl ⟨_, rfl⟩
  | send buf blen dest =>
    by_cases h : s.config.bufCap < blen
    · exact .inl ⟨{ status := .illegalLen }, by simp [exec, execSend, lengthIllegal, h]; rfl⟩
    · exact .inr (.inr ⟨buf, blen, dest, rfl, by omega, by simp [exec, execSend, lengthIllegal, h]⟩)
  | cfgwr reg w =>
    cases h : writeRegister reg w s with
    | none => exact .inl ⟨_, by simp [exec, execCfgwr, h]; rfl⟩
    | some u => exact .inr (.inl ⟨reg, w, u, rfl, h, by simp [exec, execCfgwr, h]; rfl⟩)
  | cfgrd reg =>
    cases h : readRegister reg s with
    | none => exact .inl ⟨_, by simp [exec, execCfgrd, h]; rfl⟩
    | some w => exact .inl ⟨_, by simp [exec, execCfgrd, h]; rfl⟩
  | reserved9 => exact .inl ⟨_, rfl⟩
  | reservedA => exact .inl ⟨_, rfl⟩
  | reservedB => exact .inl ⟨_, rfl⟩
  | reservedC => exact .inl ⟨_, rfl⟩
  | reservedD => exact .inl ⟨_, rfl⟩
  | reservedE => exact .inl ⟨_, rfl⟩
  | reservedF => exact .inl ⟨_, rfl⟩
  | frameAck seq unused integ => exact .inl (decodeBuffer_drives _ _ s)
  | frameData seq payload integ => exact .inl (decodeBuffer_drives _ _ s)

end Sys2Proof.Machine
end

