-- ==== Sys2Proof/Laws/Lfsr.lean ====
section
/-! SUPPORT. How the shift register's steps compose. -/

namespace Sys2Proof.Machine

@[simp] theorem lfsrSteps_zero (s : Word) : lfsrSteps 0 s = s := rfl

theorem lfsrSteps_succ (k : Nat) (s : Word) : lfsrSteps (k + 1) s = lfsrSteps k (lfsrStep s) := rfl

/-- Steps add up. -/
theorem lfsrSteps_add (j k : Nat) (s : Word) : lfsrSteps (j + k) s = lfsrSteps k (lfsrSteps j s) := by
  induction j generalizing s with
  | zero => simp
  | succ j ih => rw [Nat.succ_add, lfsrSteps_succ, lfsrSteps_succ, ih]

/-- A step from the other end. -/
theorem lfsrSteps_succ' (k : Nat) (s : Word) : lfsrSteps (k + 1) s = lfsrStep (lfsrSteps k s) :=
  lfsrSteps_add k 1 s

/-- Bit 31 after a step is the feedback. -/
theorem lfsrStep_msb (s : Word) : (lfsrStep s).getLsbD 31 = lfsrFeedback s := by
  simp [lfsrStep, BitVec.getElem_cons]

/-- Every other bit moves down one place. -/
theorem lfsrStep_getLsbD (s : Word) (i : Nat) (h : i < 31) : (lfsrStep s).getLsbD i = s.getLsbD (i + 1) := by
  have : i ≠ 31 := by omega
  simp [lfsrStep, BitVec.getLsbD_cons, h, this, Nat.add_comm]

/-- A threshold of zero never fires. -/
@[simp] theorem fires_zero (r : Sample) : fires r 0#17 = false := by simp [fires]

/-- Whether a sample fires, on numbers. -/
theorem fires_iff (r : Sample) (t : Threshold) : fires r t = true ↔ r.toNat < t.toNat := by
  have : r.toNat < 2 ^ 17 := by have := r.isLt; omega
  rw [← Nat.mod_eq_of_lt this]
  simp [fires, BitVec.lt_def]

end Sys2Proof.Machine
end

