-- ==== Sys2Proof/Laws/Port.lean ====
section
/-! SUPPORT. What a host gets from each command it issues, and from SEAL, OPEN, SEND and TOGGLE: the block afterwards and the
answer, in one lemma each. -/

namespace Sys2Proof.Machine

/-- What no instruction changes, and that each answers a next state with a response. -/
theorem exec_keeps (i : Instr) (s : State) :
    ∃ t, exec i s = .next t ∧ t.rsp.isSome = true ∧ t.config = s.config ∧ t.inputs = s.inputs := by
  obtain ⟨r, h⟩ | ⟨reg, w, u, _, hw, h⟩ | ⟨b, n, d, _, _, h⟩ := exec_effect i s
  · exact ⟨_, h, rfl, rfl, rfl⟩
  · refine ⟨_, h, rfl, ?_, ?_⟩ <;>
      obtain ⟨_, h'⟩ | ⟨_, h'⟩ | ⟨_, h'⟩ | ⟨_, h'⟩ := writeRegister_cases reg w s <;> rw [h'] at hw <;> cases hw <;> rfl
  · exact ⟨_, h, rfl, rfl, rfl⟩

/-- Whatever is done to a block, its build and its own later inputs stay. -/
theorem State.feed_keeps (inp : HostInput) (b : State) : (b.feed inp).config = b.config ∧ (b.feed inp).inputs = b.inputs := by
  unfold State.feed
  obtain ⟨hi, hf⟩ | ⟨rest, hi, hf⟩ | ⟨c, rest, hi, hf⟩ | ⟨_, rest, i, hi, _, hf⟩ :=
    fetch_cases { b with inputs := inp :: b.inputs }
  · cases hi
  · cases hi; simp [step, hf]
  · cases hi; simp [step, hf]
  · cases hi
    obtain ⟨t, h, _, hc, hin⟩ := exec_keeps i { b with inputs := b.inputs }
    simp only [step, hf, h]
    exact ⟨hc, hin⟩

/-- What is done to a block puts something on its link port only as a SEND does, to the destination presented. -/
theorem State.feed_tx {inp : HostInput} {b : State} {x : LinkTx} (h : (b.feed inp).tx = some x) :
    ∃ p, inp = .command p ∧ p.op = 6 ∧ p.dest = x.dest := by
  unfold State.feed at h
  obtain ⟨hi, _⟩ | ⟨_, hi, hf⟩ | ⟨_, _, hi, hf⟩ | ⟨_, _, i, hi, hd, hf⟩ := fetch_cases { b with inputs := inp :: b.inputs }
  · cases hi
  · cases hi; simp [step, hf] at h
  · cases hi; simp [step, hf] at h
  · cases hi
    simp only [step, hf] at h
    obtain ⟨_, e⟩ | ⟨_, _, _, _, _, e⟩ | ⟨_, _, _, rfl, _, e⟩ := exec_effect i { b with inputs := b.inputs }
    · simp [e] at h
    · simp [e] at h
    · rw [e, State.drive_tx, State.emitted] at h
      split at h <;> simp at h
      subst h
      cases inp with
      | idle => simp [decodeInput] at hd
      | reset c => simp [decodeInput] at hd
      | command p =>
        obtain ⟨ho, _, _, hx⟩ := decodeCommand_eq_send (by simpa [decodeInput] using hd)
        exact ⟨p, rfl, ho, hx⟩
      | datagram bytes => exact absurd (by simpa [decodeInput] using hd) (decodeDatagram_ne_send bytes _ _ _)

/-- What a host presents for an instruction is performed in the block as it stands. -/
theorem State.issue_eq {i : Instr} {b t : State} (hd : decodeInput (encodeInput i) = some i) (h : exec i b = .next t) :
    b.issue i = t := by
  obtain ⟨hi, _⟩ | ⟨_, hi, _⟩ | ⟨_, _, hi, _⟩ | ⟨_, _, j, hi, hj, hf⟩ :=
    fetch_cases { b with inputs := encodeInput i :: b.inputs }
  · cases hi
  · simp at hi; simp [hi.1, decodeInput] at hd
  · simp at hi; simp [hi.1, decodeInput] at hd
  · simp at hi
    obtain ⟨rfl, rfl⟩ := hi
    rw [hd] at hj
    cases hj
    simp [State.issue, State.feed, step, hf, h]

theorem plenOf_toNat {p : List Byte} (h : p.length ≤ 255) : (plenOf p).toNat = p.length := by
  simp [plenOf]; omega

/-- TOGGLE by a host: the other bit; of the block only the ports change. -/
theorem toggleByBlock_eq (q : SeqBit) (b : State) :
    toggleByBlock q b = (b.drive (some { status := .ok, seq := some (toggleBit q) }) none, toggleBit q) := by
  have h : exec (.toggle q) b = .next (b.drive (some { status := .ok, seq := some (toggleBit q) }) none) := rfl
  simp [toggleByBlock, State.issue_eq rfl h]

/-- SEND by a host, of bytes that fit: the block after one SEND, and what it emitted. -/
theorem sendFrame_eq {f : List Byte} (dest : Dest) {b : State} (h : f.length ≤ b.config.bufCap) :
    sendFrame f dest b =
      (b.advanceLfsr.drive (some { status := .ok }) (b.emitted f dest), b.emitted f dest) := by
  have : exec (.send f f.length dest) b = .next (b.advanceLfsr.drive (some { status := .ok }) (b.emitted f dest)) := by
    simp [exec, execSend, lengthIllegal, Nat.not_lt.mpr h]
  simp [sendFrame, State.issue_eq rfl this]

/-- SEAL of a payload that fits: the frame's bytes; of the block only the ports change. -/
theorem sealFrame_data {p : List Byte} (q : SeqBit) (b : State) (h : p.length ≤ 63) :
    sealFrame .data q p b =
      (b.drive (some { status := .ok, buf := some (sealedBytes b.config .data q p) }) none,
        some (sealedBytes b.config .data q p)) := by
  have h1 : exec (.compute .data q (plenOf p) p) b = .next
      (b.drive (some { status := .ok, integ := some (integrityFn b.config (content .data q p)) }) none) := by
    simp [exec, execCompute, payloadTooLong, Config.maxPayload, plenOf_toNat (by omega : p.length ≤ 255), operandContent,
      finish, h]
  have h2 (b' : State) (m : Byte) : exec (.encode .data q (plenOf p) p m) b' = .next
      (b'.drive (some { status := .ok, buf := some (content .data q p ++ [m]) }) none) := by
    simp [exec, execEncode, payloadTooLong, Config.maxPayload, plenOf_toNat (by omega : p.length ≤ 255), operandFrame, finish,
      frameBytes, content, h]
  have hl : ¬ maxPresentablePayload < p.length := by simp [maxPresentablePayload]; omega
  simp [sealFrame, hl, State.issue_eq rfl h1, fun b' m => State.issue_eq (b := b') rfl (h2 b' m), sealedBytes]

/-- SEAL of an acknowledgment. -/
theorem sealFrame_ack (q : SeqBit) (b : State) :
    sealFrame .ack q [] b =
      (b.drive (some { status := .ok, buf := some (sealedBytes b.config .ack q []) }) none,
        some (sealedBytes b.config .ack q [])) := by
  have h1 : exec (.compute .ack q (plenOf []) []) b = .next
      (b.drive (some { status := .ok, integ := some (integrityFn b.config (content .ack q [])) }) none) := by
    simp [exec, execCompute, payloadTooLong, operandContent, finish, content]
  have h2 (b' : State) (m : Byte) : exec (.encode .ack q (plenOf []) [] m) b' = .next
      (b'.drive (some { status := .ok, buf := some (content .ack q [] ++ [m]) }) none) := by
    simp [exec, execEncode, payloadTooLong, operandFrame, finish, frameBytes, content]
  simp [sealFrame, maxPresentablePayload, State.issue_eq rfl h1, fun b' m => State.issue_eq (b := b') rfl (h2 b' m), sealedBytes]

/-- SEAL of a payload that does not fit: COMPUTE refuses it, or the host itself where `cmd_plen` cannot name its length. -/
theorem sealFrame_long {p : List Byte} (q : SeqBit) (b : State) (h : 63 < p.length) :
    sealFrame .data q p b = (if 255 < p.length then b else b.drive (some { status := .lengthConstraint }) none, none) := by
  unfold sealFrame
  by_cases hl : 255 < p.length
  · simp [maxPresentablePayload, hl]
  · have h1 : exec (.compute .data q (plenOf p) p) b = .next (b.drive (some { status := .lengthConstraint }) none) := by
      simp [exec, execCompute, payloadTooLong, Config.maxPayload, plenOf_toNat (by omega : p.length ≤ 255), raise, h]
    simp [maxPresentablePayload, hl, State.issue_eq rfl h1]

/-- A frame's bytes decode to its fields. -/
theorem parseFrame_content {k : Kind} (q : SeqBit) {p : List Byte} (m : Byte) (h : p.length ≤ 63) (hk : k = .ack → p = []) :
    parseFrame (content k q p ++ [m]) =
      .ok ((match k with | .ack => .acknowledgment q m | .data => .dataUnit q p m), (content k q p).length + 1) := by
  cases k with
  | ack => simp [content, header, parseFrame_cons]
  | data =>
    cases p with
    | nil => simp [content, header, parseFrame_cons]
    | cons a p => simp [content, header, parseFrame_cons, Nat.mod_eq_of_lt (by simp at h; omega : p.length + 1 < 64)]

/-- OPEN of a frame's bytes: its fields, and whether its marker is the one the build computes; of the block only the ports
change. -/
theorem openFrame_eq {k : Kind} (q : SeqBit) {p : List Byte} (m : Byte) {b : State} (hb : b.config.Legal) (h : p.length ≤ 63)
    (hk : k = .ack → p = []) :
    openFrame (content k q p ++ [m]) b =
      (b.drive (some { status := .ok, bool := some (m == integrityFn b.config (content k q p)) }) none,
        some { kind := k, seq := q, payload := p, valid := m == integrityFn b.config (content k q p) }) := by
  have hl : (content k q p ++ [m]).length ≤ b.config.bufCap := by
    simp [Config.Legal, Config.minBufCap] at hb
    cases k <;> simp [content] <;> omega
  obtain ⟨r, h1, hk', hq, hp, hm⟩ : ∃ r : Response,
      exec (.decode (content k q p ++ [m]) (content k q p ++ [m]).length) b = .next (b.drive (some r) none) ∧
        r.kind = some k ∧ r.seq = some q ∧ r.buf = some p ∧ r.integ = some m := by
    simp only [exec, execDecode, decodeBuffer, lengthIllegal, Nat.not_lt.mpr hl, takeBytes_self, parseFrame_content q m h hk]
    cases k with
    | ack => cases hk rfl; exact ⟨_, rfl, rfl, rfl, rfl, rfl⟩
    | data => exact ⟨_, rfl, rfl, rfl, rfl, rfl⟩
  have hv (b' : State) : exec (.verify k q (plenOf p) p m) b' = .next
      (b'.drive (some { status := .ok, bool := some (m == integrityFn b'.config (content k q p)) }) none) := by
    cases k with
    | ack => cases hk rfl; simp [exec, execVerify, payloadTooLong, finish, operandContent, content, beq_eq_decide]; rfl
    | data =>
      simp [exec, execVerify, payloadTooLong, finish, Config.maxPayload, plenOf_toNat (by omega : p.length ≤ 255),
        Nat.not_lt.mpr h, operandContent, beq_eq_decide]
  cases r
  simp at hk' hq hp hm
  subst hk' hq hp hm
  simp only [openFrame, State.issue_eq rfl h1, State.drive_rsp, fun b' => State.issue_eq (b := b') rfl (hv b')]
  simp

/-- OPEN never touches the registers, the build or the inputs, whatever the bytes are. -/
theorem openFrame_keeps (d : List Byte) (b : State) : ∃ r, (openFrame d b).1 = b.drive r none := by
  have h1 : ∃ r, b.issue (.decode d d.length) = b.drive (some r) none := by
    obtain ⟨r, hr⟩ := decodeBuffer_drives d d.length b
    exact ⟨r, State.issue_eq rfl hr⟩
  have h2 (k q n p m) (b' : State) : ∃ r, b'.issue (.verify k q n p m) = b'.drive (some r) none := by
    cases h : payloadTooLong k n
    · exact ⟨_, State.issue_eq rfl (by simp [exec, execVerify, h]; rfl)⟩
    · exact ⟨_, State.issue_eq rfl (by simp [exec, execVerify, h]; rfl)⟩
  obtain ⟨r, hr⟩ := h1
  unfold openFrame
  simp only [hr]
  split
  · obtain ⟨r', hr'⟩ := h2 _ _ _ _ _ (b.drive (some r) none)
    exact ⟨_, by rw [hr']; rfl⟩
  · exact ⟨_, rfl⟩

/-- What SEND puts on the link for a frame is that frame with some marker; it is the frame itself where neither event fires. -/
theorem State.outgoing_content (b : State) (k : Kind) (q : SeqBit) (p : List Byte) (m : Byte) :
    ∃ m', b.outgoing (content k q p ++ [m]) = content k q p ++ [m'] ∧ (b.corruptFires = false → m' = m) := by
  unfold State.outgoing
  split
  · rename_i h
    exact ⟨_, flipLastBit_append _ _ _, by simp [h]⟩
  · exact ⟨m, rfl, fun _ => rfl⟩

end Sys2Proof.Machine
end

