-- ==== Sys2Proof/Laws/Transport.lean ====
section
/-! SUPPORT. What the transport's operations do to the bytes in transit between each pair of endpoints. -/

namespace Sys2Proof.Machine

variable {src src' : Endpoint} {dest dest' : Dest} {l rest : List Datagram} {d : Datagram}

@[simp] theorem Datagram.joins_iff : d.joins src dest = true ↔ d.src = src ∧ d.dest = dest := by simp [joins]

@[simp] theorem flow_nil : flow src dest [] = [] := rfl

/-- A datagram at the head belongs to its own pair alone. -/
theorem flow_cons : flow src dest (d :: l) = if d.joins src dest then d.bytes :: flow src dest l else flow src dest l := by
  simp only [flow, List.filter_cons]
  split <;> rfl

theorem flow_append (l' : List Datagram) : flow src dest (l ++ l') = flow src dest l ++ flow src dest l' := by
  simp [flow]

/-- Handing over adds the bytes at the end of their own pair's flow, and nothing to any other. -/
theorem flow_handOver (tx : Option LinkTx) :
    flow src dest (handOver src' tx l) =
      flow src dest l ++ (tx.filter fun d => decide (src' = src ∧ d.dest = dest)).toList.map LinkTx.bytes := by
  cases tx with
  | none => simp [handOver]
  | some x =>
    by_cases h : src' = src ∧ x.dest = dest <;> simp [handOver, flow_append, flow_cons, Option.filter, h]

/-- There is an oldest datagram exactly when the flow is not empty. -/
theorem takeOldest_eq_none : takeOldest src dest l = none ↔ flow src dest l = [] := by
  induction l with
  | nil => simp [takeOldest]
  | cons a l ih =>
    by_cases h : a.joins src dest
    · simp [takeOldest, flow_cons, h]
    · simpa [takeOldest, flow_cons, h] using ih

/-- Everything about the oldest datagram: it joins the pair, it is the head of the pair's flow, the rest of the flow stays, and no
other flow changes. -/
theorem takeOldest_eq_some (h : takeOldest src dest l = some (d, rest)) :
    d.src = src ∧ d.dest = dest ∧ flow src dest l = d.bytes :: flow src dest rest ∧
      (∀ src' dest', ¬(src = src' ∧ dest = dest') → flow src' dest' rest = flow src' dest' l) ∧
      ∀ x, x ∈ l ↔ x = d ∨ x ∈ rest := by
  induction l generalizing rest with
  | nil => simp [takeOldest] at h
  | cons a l ih =>
    by_cases ha : a.joins src dest
    · simp [takeOldest, ha] at h
      obtain ⟨rfl, rfl⟩ := h
      obtain ⟨rfl, rfl⟩ := Datagram.joins_iff.mp ha
      refine ⟨rfl, rfl, by simp [flow_cons], fun s' d' hn => ?_, by simp⟩
      simp [flow_cons, hn]
    · simp only [takeOldest, ha, Bool.false_eq_true, if_false, Option.map_eq_some_iff, Prod.mk.injEq] at h
      obtain ⟨⟨x, r⟩, hx, rfl, rfl⟩ := h
      obtain ⟨h1, h2, h3, h4, h5⟩ := ih hx
      refine ⟨h1, h2, by simp [flow_cons, ha, h3], fun s' d' hn => by simp [flow_cons, h4 s' d' hn], fun y => ?_⟩
      simp only [List.mem_cons, h5 y]
      tauto

/-- Taking the oldest takes exactly one. -/
theorem takeOldest_length (h : takeOldest src dest l = some (d, rest)) : rest.length + 1 = l.length := by
  induction l generalizing rest with
  | nil => simp [takeOldest] at h
  | cons a l ih =>
    by_cases ha : a.joins src dest
    · simp [takeOldest, ha] at h
      rw [← h.2]; rfl
    · simp only [takeOldest, ha, Bool.false_eq_true, if_false, Option.map_eq_some_iff, Prod.mk.injEq] at h
      obtain ⟨⟨x, r⟩, hx, rfl, rfl⟩ := h
      simp [← ih hx]

/-- Duplicating repeats the head of the pair's own flow; no other flow changes. -/
theorem flow_duplicateOldest :
    flow src' dest' (duplicateOldest src dest l) =
      if src = src' ∧ dest = dest' then (flow src' dest' l).head?.toList ++ flow src' dest' l else flow src' dest' l := by
  induction l with
  | nil => simp [duplicateOldest]
  | cons a l ih =>
    by_cases ha : a.joins src dest
    · obtain ⟨rfl, rfl⟩ := Datagram.joins_iff.mp ha
      by_cases hs : a.src = src' ∧ a.dest = dest' <;> simp [duplicateOldest, flow_cons, hs]
    · simp only [duplicateOldest, ha, Bool.false_eq_true, if_false, flow_cons, ih]
      by_cases hs : src = src' ∧ dest = dest'
      · obtain ⟨rfl, rfl⟩ := hs; simp [ha]
      · simp [hs]

/-- Duplicating adds no datagram that was not in transit. -/
theorem mem_duplicateOldest {x : Datagram} : x ∈ duplicateOldest src dest l ↔ x ∈ l := by
  induction l with
  | nil => simp [duplicateOldest]
  | cons a l ih =>
    by_cases ha : a.joins src dest
    · simp [duplicateOldest, ha]
    · simp [duplicateOldest, ha, ih]

/-- What a lossy or reliable transport makes of a flow when it may lose: the same flow, or its tail where it is the pair's. -/
theorem flow_lose (t : Transport) :
    flow src' dest' (t.lose src dest l) = flow src' dest' l ∨
      (src = src' ∧ dest = dest' ∧ flow src' dest' (t.lose src dest l) = (flow src' dest' l).tail) := by
  cases t with
  | reliable => exact .inl rfl
  | lossy =>
    cases h : takeOldest src dest l with
    | none => simp [Transport.lose, h]
    | some p =>
      obtain ⟨d, rest⟩ := p
      obtain ⟨_, _, h3, h4, _⟩ := takeOldest_eq_some h
      by_cases hs : src = src' ∧ dest = dest'
      · obtain ⟨rfl, rfl⟩ := hs
        exact .inr ⟨rfl, rfl, by simp [Transport.lose, h, h3]⟩
      · exact .inl (by simp [Transport.lose, h, h4 _ _ hs])

/-- Losing adds no datagram that was not in transit. -/
theorem mem_of_mem_lose {x : Datagram} (t : Transport) (hx : x ∈ t.lose src dest l) : x ∈ l := by
  cases t with
  | reliable => exact hx
  | lossy =>
    cases h : takeOldest src dest l with
    | none => simpa [Transport.lose, h] using hx
    | some p => exact ((takeOldest_eq_some h).2.2.2.2 x).mpr (.inr (by simpa [Transport.lose, h] using hx))

end Sys2Proof.Machine
end

