-- ==== Sys2Proof/Laws/Peers.lean ====
section
/-! SUPPORT. What the two peers do with the frames they get, in one lemma each, and what the closed system's updates leave. -/

namespace Sys2Proof.Machine

/-! ## The receiver -/

/-- An acknowledgment is sealed and handed to SEND; nothing but the block changes. -/
theorem Receiver.acknowledge_eq (x : Receiver) (peer : Dest) (q : SeqBit) (hL : x.block.config.Legal) :
    x.acknowledge peer q =
      { receiver :=
          { x with
            block := x.block.advanceLfsr.drive (some { status := .ok })
              (x.block.emitted (sealedBytes x.block.config .ack q []) peer) }
        link := x.block.emitted (sealedBytes x.block.config .ack q []) peer } := by
  unfold Receiver.acknowledge
  rw [sealFrame_ack]
  simp only
  rw [sendFrame_eq]
  · rfl
  · simp [Config.Legal, Config.minBufCap] at hL
    simp [sealedBytes, content]; omega

@[simp] theorem Receiver.advance_eq (x : Receiver) :
    x.advance =
      { x with
        block := x.block.drive (some { status := .ok, seq := some (toggleBit x.expected) }) none
        expected := toggleBit x.expected } := by
  simp [Receiver.advance, toggleByBlock_eq]

/-- Everything the receiver can do with the bytes of a data unit: silence, or the acknowledgment of `toggle(expected)`, on a marker
that does not verify; the acknowledgment alone for the other number; delivery, acknowledgment and advance for the expected
one. The acknowledgment's SEND draws from the registers as they were before. -/
theorem Receiver.receive_data (x : Receiver) (policy : RxBadPolicy) (peer : Dest) (q : SeqBit) {p : List Byte} (m : Byte)
    (hL : x.block.config.Legal) (hp : p.length ≤ 63) :
    ∃ b r t, b.config = x.block.config ∧
      let verifies := m == integrityFn x.block.config (content .data q p)
      let ack (n : SeqBit) := (x.block.drive r t).emitted (sealedBytes x.block.config .ack n []) peer
      let answer := x.receive policy peer (content .data q p ++ [m])
      (verifies = false ∧ answer = { receiver := { x with block := b } }) ∨
      (verifies = false ∧ answer = { receiver := { x with block := b }, link := ack (toggleBit x.expected) }) ∨
      (verifies = true ∧ q ≠ x.expected ∧ answer = { receiver := { x with block := b }, link := ack q }) ∨
      (verifies = true ∧ q = x.expected ∧
        answer =
          { receiver := { block := b, expected := toggleBit x.expected, delivered := x.delivered ++ [p] }, link := ack q }) := by
  unfold Receiver.receive
  rw [openFrame_eq q m hL hp (by simp)]
  simp only
  generalize (m == integrityFn x.block.config (content .data q p)) = v
  cases v with
  | false =>
    cases policy with
    | silent => exact ⟨_, none, none, by rfl, .inl ⟨rfl, rfl⟩⟩
    | reackPrev =>
      simp only [toggleByBlock_eq]
      rw [acknowledge_eq _ _ _ (by simpa using hL)]
      exact ⟨_, _, _, by rfl, .inr (.inl ⟨trivial, rfl⟩)⟩
  | true =>
    simp only
    split
    · rename_i hq
      rw [acknowledge_eq _ _ _ (by simpa using hL)]
      simp only [advance_eq]
      exact ⟨_, _, _, by rfl, .inr (.inr (.inr ⟨trivial, hq, rfl⟩))⟩
    · rename_i hq
      rw [acknowledge_eq _ _ _ (by simpa using hL)]
      exact ⟨_, _, _, by rfl, .inr (.inr (.inl ⟨trivial, hq, rfl⟩))⟩

/-! ## The sender -/

/-- What the sender does with the bytes of an acknowledgment while it awaits one: it accepts it when number and marker match, and
else nothing but the block's ports changes. -/
theorem Sender.receive_ack (x : Sender) (q : SeqBit) (m : Byte) {last : List Byte} (hL : x.block.config.Legal)
    (hp : x.phase = .awaitingAck last) :
    ∃ b r, b = x.block.drive r none ∧
      x.receive (content .ack q [] ++ [m]) =
        if q = x.number ∧ (m == integrityFn x.block.config (content .ack q [])) then
          { sender := { block := b, number := toggleBit x.number, phase := .idle, timerArmed := false }
            report := some .success }
        else { sender := { x with block := b } } := by
  simp only [Sender.receive, hp, openFrame_eq q m hL (by simp : ([] : List Byte).length ≤ 63) (fun _ => rfl)]
  by_cases h : q = x.number ∧ (m == integrityFn x.block.config (content .ack q []))
  · refine ⟨_, some { status := .ok, seq := some (toggleBit x.number) }, rfl, ?_⟩
    rw [if_pos h, if_pos (by simpa using h)]
    simp [toggleByBlock_eq]
  · refine ⟨_, some { status := .ok, bool := some (m == integrityFn x.block.config (content .ack q [])) }, rfl, ?_⟩
    rw [if_neg h, if_neg (by simpa using h)]

/-! ## The closed system -/

@[simp] theorem handOver_none (src : Endpoint) (l : List Datagram) : handOver src none l = l := by simp [handOver]

section
variable (y : System) (src : Endpoint) (tx : Option LinkTx)

@[simp] theorem System.emit_config : (y.emit src tx).config = y.config := rfl
@[simp] theorem System.emit_sender : (y.emit src tx).sender = y.sender := rfl
@[simp] theorem System.emit_receiver : (y.emit src tx).receiver = y.receiver := rfl
@[simp] theorem System.emit_transit : (y.emit src tx).transit = handOver src tx y.transit := rfl
@[simp] theorem System.emit_elsewhere : (y.emit src tx).elsewhere = y.elsewhere := rfl
@[simp] theorem System.emit_submitted : (y.emit src tx).submitted = y.submitted := rfl
@[simp] theorem System.emit_reports : (y.emit src tx).reports = y.reports := rfl
end

/-- What a SEND adds to a flow: at most one datagram, and only to its own pair's. -/
theorem flow_emitted (src src' : Endpoint) (dest dest' : Dest) (b : State) (bytes : List Byte) (l : List Datagram) :
    flow src' dest' (handOver src (b.emitted bytes dest) l) =
      flow src' dest' l ++
        (if src = src' ∧ dest = dest' then (if b.dropFires then [] else [b.outgoing bytes]) else []) := by
  rw [flow_handOver, State.emitted]
  by_cases h1 : b.dropFires <;> by_cases h2 : src = src' ∧ dest = dest' <;> simp [h1, h2, Option.filter]

/-- No event changes what is fixed for the environment. -/
@[simp] theorem System.handle_config (y : System) (e : Event) : (y.handle e).config = y.config := by
  cases e with
  | submit p => simp only [System.handle, System.recordSubmit]; split <;> rfl
  | arrive src dest =>
    simp only [System.handle]
    split
    · rfl
    · simp only [System.deliver]
      split
      · rfl
      · split <;> rfl
  | timeout | atSenderBlock | atReceiverBlock | sentByOther | lose | duplicate => rfl

end Sys2Proof.Machine
end

