-- ==== Sys2Proof/Laws/PerInstr.lean ====
section
/-! SUPPORT. A statement made of every instruction: what a host presents for it agrees with its row of
spec/opcode_table.json (the row's `match` under its `mask`). -/

namespace Sys2Proof.Laws.TableRow

/-- The `mask` and the `match` of the instruction's row. -/
def row : Instr → Nat × Nat
  | .nop => (0xF, 0x0)
  | .encode .. => (0xF, 0x1)
  | .decode .. => (0xF, 0x2)
  | .compute .. => (0xF, 0x3)
  | .verify .. => (0xF, 0x4)
  | .toggle .. => (0xF, 0x5)
  | .send .. => (0xF, 0x6)
  | .cfgwr .. => (0xF, 0x7)
  | .cfgrd .. => (0xF, 0x8)
  | .reserved9 => (0xF, 0x9)
  | .reservedA => (0xF, 0xA)
  | .reservedB => (0xF, 0xB)
  | .reservedC => (0xF, 0xC)
  | .reservedD => (0xF, 0xD)
  | .reservedE => (0xF, 0xE)
  | .reservedF => (0xF, 0xF)
  | .frameAck .. => (0x80, 0x00)
  | .frameData .. => (0x80, 0x80)

/-- The word of the table that an input shows: the command code, or byte 0 of the frame. -/
def shown : HostInput → Option Nat
  | .command p => some p.op.toNat
  | .datagram (h :: _) => some h.toNat
  | _ => none

/-- What is presented for the instruction shows its row's match under its row's mask. -/
def Statement (i : Instr) : Prop := (shown (encodeInput i)).map (· &&& (row i).1) = some (row i).2

theorem nop : Statement .nop := by simp [Statement, shown, encodeInput, row]
theorem encode (kind : Kind) (seq : SeqBit) (plen : Byte) (buf : List Byte) (integ : Byte) :
    Statement (.encode kind seq plen buf integ) := by simp [Statement, shown, encodeInput, row]
theorem decode (buf : List Byte) (blen : Nat) : Statement (.decode buf blen) := by simp [Statement, shown, encodeInput, row]
theorem compute (kind : Kind) (seq : SeqBit) (plen : Byte) (buf : List Byte) :
    Statement (.compute kind seq plen buf) := by simp [Statement, shown, encodeInput, row]
theorem verify (kind : Kind) (seq : SeqBit) (plen : Byte) (buf : List Byte) (integ : Byte) :
    Statement (.verify kind seq plen buf integ) := by simp [Statement, shown, encodeInput, row]
theorem toggle (seq : SeqBit) : Statement (.toggle seq) := by simp [Statement, shown, encodeInput, row]
theorem send (buf : List Byte) (blen : Nat) (dest : Dest) : Statement (.send buf blen dest) := by simp [Statement, shown, encodeInput, row]
theorem cfgwr (reg : RegIndex) (wdata : Word) : Statement (.cfgwr reg wdata) := by
  simp [Statement, shown, encodeInput, row]
theorem cfgrd (reg : RegIndex) : Statement (.cfgrd reg) := by simp [Statement, shown, encodeInput, row]
theorem reserved9 : Statement .reserved9 := rfl
theorem reservedA : Statement .reservedA := by simp [Statement, shown, encodeInput, row]
theorem reservedB : Statement .reservedB := rfl
theorem reservedC : Statement .reservedC := by simp [Statement, shown, encodeInput, row]
theorem reservedD : Statement .reservedD := rfl
theorem reservedE : Statement .reservedE := by simp [Statement, shown, encodeInput, row]
theorem reservedF : Statement .reservedF := by simp [Statement, shown, encodeInput, row]

/-- An ACK header has bit 7 clear, whatever its other fields. -/
theorem frameAck (seq : SeqBit) (unused : BitVec 6) (integ : Byte) : Statement (.frameAck seq unused integ) := by
  have h : ∀ (q : SeqBit) (u : BitVec 6), (packHeader .ack q u).toNat &&& 0x80 = 0x00 := by
    intro q; cases q <;> decide
  simpa [Statement, shown, encodeInput, ackBytes, row] using h seq unused

/-- A DATA header has bit 7 set, whatever its other fields. -/
theorem frameData (seq : SeqBit) (payload : List Byte) (integ : Byte) :
    Statement (.frameData seq payload integ) := by
  have h : ∀ (q : SeqBit) (n : BitVec 6), (packHeader .data q n).toNat &&& 0x80 = 0x80 := by
    intro q; cases q <;> decide
  simpa [Statement, shown, encodeInput, dataBytes, frameBytes, header, row] using h seq _

end Sys2Proof.Laws.TableRow
end

