-- ==== Sys2Proof/Tests/Slice0.lean ====
section
/-! SUPPORT. The model's own tests. Every expected result is a literal of the spec: the vectors of spec/95_test_vectors.md (named
in the comments: E, DV, M, V, S, G, X rows) or a word written out from spec/30_encoding.md R60, R61, R70. After them stand
the witnesses: for each statement with hypotheses, a concrete state and operands that meet them, each clause at a boundary of
its range. -/

namespace Sys2Proof.Tests

open Sys2Proof Sys2Proof.Machine

/-! ## Helpers -/

/-- The next state, where there is one. -/
def next? (r : Result) : Option State :=
  match r with
  | .next t => some t
  | .fault _ => none
  | .refused _ => none

/-- The response of a step. -/
def rspOf (r : Result) : Option Response := (next? r).bind State.rsp

/-- The link transaction of a step. -/
def txOf (r : Result) : Option LinkTx := (next? r).bind State.tx

/-- The three registers after a step. -/
def regsOf (r : Result) : Option (Threshold × Threshold × Word) :=
  (next? r).map fun t => (t.corruptT, t.dropT, t.lfsr)

/-- The state after reset with the registers as given. -/
def st (corruptT dropT : Threshold) (lfsr : Word) : State := { State.reset with corruptT, dropT, lfsr }

/-- The state after reset of a block built with mode `XOR8` and the least capacity, 65. -/
def xor : State := { State.reset with config := { integrityMode := .xor8, bufCap := 65 } }

/-- "ciao" (Scenario A). -/
def ciao : List Byte := [0x63, 0x69, 0x61, 0x6F]

/-- The frame of Scenario A. -/
def frameA : List Byte := [0x84, 0x63, 0x69, 0x61, 0x6F, 0x00]

/-! ## WellFormed refuses what the fields cannot carry -/

theorem test_wf_payload_64 : (Instr.frameData .zero (List.replicate 64 0) 0).wellFormed .standard = false := by decide
theorem test_wf_frame_64 : (Frame.dataUnit .zero (List.replicate 64 0) 0).wellFormed = false := by decide
theorem test_wf_blen : (Instr.decode [] 1024).wellFormed .standard = false := by decide
theorem test_wf_send_blen : (Instr.send [] 1024 0).wellFormed .standard = false := by decide
theorem test_wf_buf :
    (Instr.encode .data .zero 0 (List.replicate 66 0) 0).wellFormed { integrityMode := .status, bufCap := 65 } = false := by
  decide
theorem test_wf_port :
    CmdPort.wellFormed { integrityMode := .status, bufCap := 65 } { op := 1, buf := List.replicate 66 0 } = false := by
  decide
/-- The port can present 1023, which the command refuses (X5). -/
theorem test_wf_blen_1023 : (Instr.decode [] 1023).wellFormed .standard = true := by decide

/-! ## Every row of the opcode table, from its word -/

theorem test_decode_nop : decodeTableWord 8 0b0000 = some .nop := by decide
theorem test_decode_encode : decodeTableWord 8 0b0001 = some (.encode .ack .zero 0 [] 0) := by decide
theorem test_decode_decode : decodeTableWord 8 0b0010 = some (.decode [] 0) := by decide
theorem test_decode_compute : decodeTableWord 8 0b0011 = some (.compute .ack .zero 0 []) := by decide
theorem test_decode_verify : decodeTableWord 8 0b0100 = some (.verify .ack .zero 0 [] 0) := by decide
theorem test_decode_toggle : decodeTableWord 8 0b0101 = some (.toggle .zero) := by decide
theorem test_decode_send : decodeTableWord 8 0b0110 = some (.send [] 0 0) := by decide
theorem test_decode_cfgwr : decodeTableWord 8 0b0111 = some (.cfgwr 0 0) := by decide
theorem test_decode_cfgrd : decodeTableWord 8 0b1000 = some (.cfgrd 0) := by decide
theorem test_decode_reserved9 : decodeTableWord 8 0b1001 = some .reserved9 := by decide
theorem test_decode_reservedA : decodeTableWord 8 0b1010 = some .reservedA := by decide
theorem test_decode_reservedB : decodeTableWord 8 0b1011 = some .reservedB := by decide
theorem test_decode_reservedC : decodeTableWord 8 0b1100 = some .reservedC := by decide
theorem test_decode_reservedD : decodeTableWord 8 0b1101 = some .reservedD := by decide
theorem test_decode_reservedE : decodeTableWord 8 0b1110 = some .reservedE := by decide
theorem test_decode_reservedF : decodeTableWord 8 0b1111 = some .reservedF := by decide
/-- Discriminator 0, seq 1, six unused bits, then a marker of zeros (R60). -/
theorem test_decode_frameAck : decodeTableWord 8 0b0_1_000000 = some (.frameAck .one 0 0) := by decide
/-- Discriminator 1, seq 0, length 4, then operand bytes of zeros (R61). -/
theorem test_decode_frameData : decodeTableWord 8 0b1_0_000100 = some (.frameData .zero [0, 0, 0, 0] 0) := by decide
/-- All eight fields of a presented CFGWR that it does not read are ignored. -/
theorem test_decode_operands :
    decodeCommand
      { op := 7, kind := .data, seq := .one, plen := 255, integ := 9, buf := [1], blen := 1000, dest := 5, reg := 2,
        wdata := 0x12345678 } = .cfgwr 2 0x12345678 := by decide
/-- DV10: the header implies 6 bytes. -/
theorem test_decodeFrameRow_truncated : decodeDatagram [0x84, 0x63, 0x69, 0x61, 0x6F] =
    .decode [0x84, 0x63, 0x69, 0x61, 0x6F] 5 := by decide
/-- DV12: bytes after the frame; it is not exactly one frame. -/
theorem test_decodeDatagram_trailing : decodeDatagram (frameA ++ [0xAA, 0xBB]) = .decode (frameA ++ [0xAA, 0xBB]) 8 := by
  decide

/-! ## What the commands do -/

/-- G1. -/
theorem test_nop : next? (exec .nop .reset) = some { State.reset with rsp := some { status := .ok } } := by decide
/-- E8, Scenario A. -/
theorem test_encode_scenarioA : rspOf (exec (.encode .data .zero 4 ciao 0x00) .reset) =
    some { status := .ok, buf := some [0x84, 0x63, 0x69, 0x61, 0x6F, 0x00] } := by decide
/-- E4: an ACK with `cmd_plen` = 200. -/
theorem test_encode_ack : rspOf (exec (.encode .ack .one 200 ciao 0xA5) .reset) =
    some { status := .ok, buf := some [0x40, 0xA5] } := by decide
/-- DV6: the unused bits are ignored. -/
theorem test_decode_unused_bits : rspOf (exec (.decode [0x7F, 0x12] 2) .reset) =
    some { status := .ok, buf := some [], kind := some .ack, seq := some .one, plen := some 0, integ := some 0x12,
           used := some 2 } := by decide
/-- DV12. -/
theorem test_decode_trailing : rspOf (exec (.decode (frameA ++ [0xAA, 0xBB]) 8) .reset) =
    some { status := .ok, buf := some ciao, kind := some .data, seq := some .zero, plen := some 4, integ := some 0,
           used := some 6 } := by decide
/-- M5 in mode `XOR8`. -/
theorem test_compute_xor8 : rspOf (exec (.compute .data .zero 4 ciao) xor) = some { status := .ok, integ := some 0x80 } := by
  decide
/-- M12 in mode `XOR8`: an ACK with `cmd_plen` = 99. -/
theorem test_compute_ack : rspOf (exec (.compute .ack .one 99 ciao) xor) = some { status := .ok, integ := some 0x40 } := by
  decide
/-- V9: a payload change is detected in mode `XOR8`. -/
theorem test_verify_xor8 : rspOf (exec (.verify .data .zero 4 [0x63, 0x69, 0x61, 0x6E] 0x80) xor) =
    some { status := .ok, bool := some false } := by decide
/-- V3: the same change is not detected in mode `STATUS`. -/
theorem test_verify_status : rspOf (exec (.verify .data .zero 4 [0x63, 0x69, 0x61, 0x6E] 0x00) .reset) =
    some { status := .ok, bool := some true } := by decide
theorem test_toggle : rspOf (exec (.toggle .zero) .reset) = some { status := .ok, seq := some .one } := by decide
/-- S4: corrupted at bit 3; `r_d` = `8000` is not below `08000`. -/
theorem test_send_corrupt :
    next? (exec (.send frameA 6 0xD) (st 0x08000 0x08000 0x80000003)) =
      some { st 0x08000 0x08000 0x5B600000 with
             rsp := some { status := .ok }, tx := some { bytes := [0x84, 0x63, 0x69, 0x61, 0x6F, 0x08], dest := 0xD } } := by
  decide +kernel
/-- S11: threshold one above the drop sample; the corruption sample is not below its threshold. -/
theorem test_send_drop :
    next? (exec (.send [0x40, 0x00] 2 0xD) (st 0x05678 0x01235 0x12345678)) =
      some { st 0x05678 0x01235 0xFB26F3CF with rsp := some { status := .ok } } := by decide +kernel
/-- G10, a clamped threshold. -/
theorem test_cfgwr_clamp : regsOf (exec (.cfgwr 0 0xFFFFFFFF) (st 0x08000 0x10000 0xFFFFFFFF)) =
    some (0x10000, 0x10000, 0xFFFFFFFF) := by decide
/-- G15, a seed of zero. -/
theorem test_cfgwr_seed_zero : regsOf (exec (.cfgwr 2 0) (st 0x10000 0x10000 0x12345678)) =
    some (0x10000, 0x10000, 0xFFFFFFFF) := by decide
/-- G12. -/
theorem test_cfgrd : rspOf (exec (.cfgrd 0) (st 0x10000 0x0FFFF 0x12345678)) =
    some { status := .ok, rdata := some 0x00010000 } := by decide
/-- G14: a read does not advance the register. -/
theorem test_cfgrd_lfsr : next? (exec (.cfgrd 2) (st 0 0 0x12345678)) =
    some { st 0 0 0x12345678 with rsp := some { status := .ok, rdata := some 0x12345678 } } := by decide
/-- X1. -/
theorem test_reserved9 : rspOf (exec .reserved9 .reset) = some { status := .illegalOp } := by decide
/-- X3: no operand is looked at. -/
theorem test_reservedA : next? (step { State.reset with
      inputs := [.command { op := 0xA, blen := 1000, reg := 3, plen := 255 }] }) =
    some { State.reset with rsp := some { status := .illegalOp } } := by decide
/-- P6, step 3. -/
theorem test_reservedB : regsOf (exec .reservedB (st 0 0 0x12345678)) = some (0, 0, 0x12345678) := by decide
theorem test_reservedC : rspOf (exec .reservedC .reset) = some { status := .illegalOp } := by decide
theorem test_reservedD : rspOf (exec .reservedD .reset) = some { status := .illegalOp } := by decide
theorem test_reservedE : rspOf (exec .reservedE .reset) = some { status := .illegalOp } := by decide
/-- X2. -/
theorem test_reservedF : rspOf (exec .reservedF .reset) = some { status := .illegalOp } := by decide
/-- DV7, as a frame row: the unused bits are ignored. -/
theorem test_frameAck : rspOf (exec (.frameAck .zero 0b111111 0x00) .reset) =
    some { status := .ok, buf := some [], kind := some .ack, seq := some .zero, plen := some 0, integ := some 0,
           used := some 2 } := by decide
/-- DV14, as a frame row. -/
theorem test_frameData : rspOf (exec (.frameData .one [0xFF] 0x00) .reset) =
    some { status := .ok, buf := some [0xFF], kind := some .data, seq := some .one, plen := some 1, integ := some 0,
           used := some 3 } := by decide

/-! ## The step -/

/-- The advance of the first SEND from reset (table of 2.5). -/
theorem test_lfsrSteps : lfsrSteps 32 0xFFFFFFFF = 0x861B6DB6 := by decide +kernel
/-- P1, step 3, through the step. -/
theorem test_step_send : next? (step { State.reset with inputs := [.command { op := 6, buf := frameA, blen := 6, dest := 0xD }] }) =
    some { st 0 0 0x861B6DB6 with rsp := some { status := .ok }, tx := some { bytes := frameA, dest := 0xD } } := by decide +kernel
/-- Reset in the middle of a CFGWR: the command is abandoned (R242). -/
theorem test_step_reset : next? (step { st 0x08000 1 0x12345678 with
      inputs := [.reset (some { op := 7, reg := 0, wdata := 5 })], rsp := some { status := .ok } }) = some .reset := by decide
/-- The word of a row runs as the first instruction after reset. -/
theorem test_withFetchWord : rspOf (step (State.reset.withFetchWord 8 0b1_1_000001)) =
    some { status := .ok, buf := some [0], kind := some .data, seq := some .one, plen := some 1, integ := some 0,
           used := some 3 } := by decide

/-! ## The transport -/

/-- R190, R147: another host of the sender's block sends to the receiver; its datagram is in transit like any other. -/
theorem test_transit_of_other_host :
    ((System.start { rxBadPolicy := .silent, transport := .reliable, senderAddr := 1, receiverAddr := 2 } .reset .reset).handle
      (.atSenderBlock (.command { op := 6, buf := [0x40, 0x00], blen := 2, dest := 2 }))).transit =
      [{ src := .sender, dest := 2, bytes := [0x40, 0x00] }] := by decide +kernel
/-- R190: a datagram for a third endpoint arrives there. -/
theorem test_arrive_elsewhere :
    (({ System.start { rxBadPolicy := .silent, transport := .reliable, senderAddr := 1, receiverAddr := 2 } .reset .reset with
        transit := [{ src := .sender, dest := 2, bytes := [1] }, { src := .sender, dest := 3, bytes := [2] }] } : System).handle
      (.arrive .sender 3)).elsewhere = [{ src := .sender, dest := 3, bytes := [2] }] := by decide +kernel

/-! ## Witnesses: the step and the ports -/

theorem witness_StepRunsDecodedInstruction : ∃ (s : State) (inp : HostInput) (rest : List HostInput) (i : Instr),
    s.inputs = inp :: rest ∧ decodeInput inp = some i :=
  ⟨{ State.reset with inputs := [.command { op := 6 }] }, _, _, _, rfl, rfl⟩
theorem witness_IdleStepHoldsEverything : (∃ s : State, s.inputs = []) ∧
    ∃ (s : State) (rest : List HostInput), s.inputs = .idle :: rest :=
  ⟨⟨.reset, rfl⟩, ⟨{ State.reset with inputs := [.idle] }, _, rfl⟩⟩
theorem witness_ResetInputLoadsResetValues : ∃ (s : State) (c : Option CmdPort) (rest : List HostInput),
    s.inputs = .reset c :: rest :=
  ⟨{ st 1 1 1 with inputs := [.reset (some { op := 6 })] }, _, _, rfl⟩
theorem witness_OneResponsePerCommandTaken : ∃ s t : State, step s = .next t ∧ t.tx.isSome = true :=
  ⟨{ State.reset with inputs := [.command { op := 6 }] }, _, rfl, by decide⟩
theorem witness_StepKeepsInvariant : ∃ s t : State, s.Inv ∧ step s = .next t :=
  ⟨{ State.reset with inputs := [.command { op := 6 }] }, _, by decide, rfl⟩
theorem witness_BuildNeverChanges : ∃ s t : State, step s = .next t := ⟨.reset, _, rfl⟩

/-! ## Witnesses: decoding and the codec -/

theorem witness_DecodeOfEncodeIsIdentity : ∃ (c : Config) (i : Instr), i.wellFormed c = true :=
  ⟨.standard, .frameData .one (List.replicate 63 0) 0, by decide⟩
theorem witness_EveryHeaderSelectsAFrame :
    (∃ (h : Byte) (body : List Byte), (h :: body).length = frameLength h ∧ h.toNat = 127) ∧
    ∃ (h : Byte) (body : List Byte), (h :: body).length = frameLength h ∧ h.toNat = 128 :=
  ⟨⟨0x7F, [0], by decide⟩, ⟨0x80, [0], by decide⟩⟩
theorem witness_UnreadPortFieldsAreIgnored : ∃ p q : CmdPort, p ≠ q ∧ p.op = q.op ∧
    (p.op.toNat ∈ [1, 3, 4] → p.kind = q.kind ∧ p.plen = q.plen ∧ p.buf = q.buf) ∧
    (p.op.toNat ∈ [1, 3, 4, 5] → p.seq = q.seq) ∧ (p.op.toNat ∈ [1, 4] → p.integ = q.integ) ∧
    (p.op.toNat ∈ [2, 6] → p.buf = q.buf ∧ p.blen = q.blen) ∧ (p.op.toNat = 6 → p.dest = q.dest) ∧
    (p.op.toNat ∈ [7, 8] → p.reg = q.reg) ∧ (p.op.toNat = 7 → p.wdata = q.wdata) :=
  ⟨{ op := 1, dest := 1 }, { op := 1, dest := 2 }, by decide⟩
theorem witness_EncodeOutcome : ∃ a b : Byte, a.toNat ≤ 63 ∧ 63 < b.toNat ∧ b.toNat = a.toNat + 1 := ⟨63, 64, by decide⟩
theorem witness_DecodeOutcome_illegalLen : State.reset.config.bufCap < 513 := by decide
theorem witness_DecodeOutcome_short : 1 ≤ State.reset.config.bufCap ∧ 1 < 2 := by decide
theorem witness_DecodeOutcome_ack : 2 ≤ State.reset.config.bufCap ∧ ((takeBytes 2 [0x7F, 0x12]).getD 0 0).toNat < 128 := by
  decide
theorem witness_DecodeOutcome_data :
    3 ≤ State.reset.config.bufCap ∧ ((takeBytes 3 [0xC1, 0xFF, 0]).getD 0 0).toNat % 64 + 2 ≤ 3 ∧
      128 ≤ ((takeBytes 3 [0xC1, 0xFF, 0]).getD 0 0).toNat := by decide
theorem witness_DecodeOutcome_truncated :
    2 ≤ State.reset.config.bufCap ∧ 128 ≤ ((takeBytes 2 [0xC1, 0xFF]).getD 0 0).toNat ∧
      2 < ((takeBytes 2 [0xC1, 0xFF]).getD 0 0).toNat % 64 + 2 := by decide
theorem witness_DecodeAfterEncodeGivesTheFrame : ∃ (u : State) (kind : Kind) (plen : Byte), u.config.Legal ∧ kind = .data ∧
    plen.toNat ≤ 63 := ⟨xor, .data, 63, by decide⟩
theorem witness_EncodeAfterDecodeGivesTheBytes_ack : exec (.decode [0x7F, 0x12] 2) .reset = .next
    { State.reset with
      rsp := some { status := .ok, kind := some .ack, seq := some .one, plen := some 0, buf := some [], integ := some 0x12,
                    used := some 2 }, tx := none } := rfl
theorem witness_EncodeAfterDecodeGivesTheBytes_data : exec (.decode [0x80, 0x55] 2) .reset = .next
    { State.reset with
      rsp := some { status := .ok, kind := some .data, seq := some .zero, plen := some 0, buf := some [], integ := some 0x55,
                    used := some 2 }, tx := none } := rfl
theorem witness_DecodeIgnoresTrailingBytes : ∃ (bytes trailing : List Byte) (s : State) (r : Response), r.status = .ok ∧
    exec (.decode bytes bytes.length) s = .next { s with rsp := some r, tx := none } ∧
    (bytes ++ trailing).length ≤ s.config.bufCap :=
  ⟨[0x40, 0x00], [0x99], .reset, _, rfl, rfl, by decide⟩
theorem witness_BytesAboveTheLengthAreNeverRead : ∃ (b₁ b₂ : List Byte) (n : Nat), b₁ ≠ b₂ ∧
    (∀ i < n, b₁.getD i 0 = b₂.getD i 0) ∧ ∃ plen : Byte, plen.toNat = n :=
  ⟨[0x40, 0x00, 1], [0x40, 0x00, 2], 2, by decide, by decide, 2, rfl⟩
theorem witness_EncodeIsInjective : ∃ (b₁ b₂ bytes : List Byte) (s : State),
    exec (.encode .data .zero 1 b₁ 0) s = .next { s with rsp := some { status := .ok, buf := some bytes }, tx := none } ∧
    exec (.encode .data .zero 1 b₂ 0) s = .next { s with rsp := some { status := .ok, buf := some bytes }, tx := none } :=
  ⟨[7, 1], [7, 2], _, .reset, rfl, rfl⟩
theorem witness_FrameRowsAreDecoded : State.reset.config.Legal ∧ (List.replicate 63 (0 : Byte)).length ≤ 63 := by decide

/-! ## Witnesses: the marker, the injector, configuration and errors -/

theorem witness_IntegrityFunctionOfEachMode :
    State.reset.config.integrityMode = .status ∧ xor.config.integrityMode = .xor8 := by decide
theorem witness_VerifyAgreesWithCompute : ∃ (kind : Kind) (plen : Byte), kind = .data ∧ plen.toNat ≤ 63 := ⟨_, 63, rfl, by decide⟩
theorem witness_Xor8DetectsOneBitChange : ∃ (c : Config) (cont : List Byte) (i b : Nat), c.integrityMode = .xor8 ∧ b < 8 ∧
    i < (cont ++ [integrityFn c cont]).length := ⟨xor.config, [0x40], 1, 7, by decide⟩
theorem witness_CorruptedSealedFrameIsDetected : ∃ (s u : State) (kind : Kind) (plen : Byte), s.config.Legal ∧
    (kind = .data → plen.toNat ≤ 63) ∧ s.corruptFires = true ∧ s.dropFires = false ∧ u.config = s.config :=
  ⟨st 0x08000 0x08000 0xFFFF0000, .reset, .data, 63, by decide⟩
theorem witness_LfsrNonZeroValuesFormOneCycle : ∃ v w : Word, v ≠ 0 ∧ w ≠ 0 := ⟨1, 2, by decide⟩
theorem witness_ThresholdFiresOnExactlyThatManySamples : ∃ t : Threshold, t ≤ Config.thresholdMax ∧ t.toNat = 65536 :=
  ⟨0x10000, by decide⟩
theorem witness_EventCountsOverOnePeriod : ∃ (v : Word) (tc td : Threshold), v ≠ 0 ∧ tc ≤ Config.thresholdMax ∧
    td ≤ Config.thresholdMax := ⟨0xFFFFFFFF, 0x10000, 0, by decide⟩
theorem witness_CleanSendInEveryPeriod : ∃ s : State, s.lfsr ≠ 0 ∧ s.corruptT.toNat ≤ 0xFFFF ∧ s.dropT.toNat ≤ 0xFFFF :=
  ⟨st 0x0FFFF 0x0FFFF 1, by decide⟩
theorem witness_SendOutcome : 512 ≤ State.reset.config.bufCap ∧ State.reset.config.bufCap < 513 := by decide
theorem witness_SendTellsNothing : ∃ (s₁ s₂ t₁ t₂ : State), 2 ≤ s₁.config.bufCap ∧ 1 ≤ s₂.config.bufCap ∧
    exec (.send [0x40, 0] 2 1) s₁ = .next t₁ ∧ exec (.send [0xAA] 1 2) s₂ = .next t₂ ∧ s₁.lfsr = s₂.lfsr ∧
    s₁.dropT = s₂.dropT ∧ ∃ x, t₁.tx = some x :=
  ⟨.reset, .reset, _, _, by decide, by decide, rfl, rfl, rfl, rfl, _, rfl⟩
theorem witness_EachSendTakesTheNextThirtyTwoBits : ∃ (s : State) (ports : List CmdPort) (rest : List HostInput),
    s.inputs = ports.map HostInput.command ++ rest ∧ (∀ p ∈ ports, p.op = 7 → p.reg ≠ 2) ∧ ports.length = 2 :=
  ⟨{ State.reset with inputs := [.command { op := 6 }, .command { op := 7, reg := 1 }, .idle] },
    [{ op := 6 }, { op := 7, reg := 1 }], [.idle], rfl, by decide, rfl⟩
theorem witness_SeedDecidesTheNextSend : ∃ (s t : State) (v : Word), v ≠ 0 ∧ exec (.cfgwr 2 v) s = .next t :=
  ⟨.reset, _, 0xFFFF0000, by decide, rfl⟩
theorem witness_ReservedCodesAnswerIllegalOp : ∃ p q : CmdPort, 9 ≤ p.op.toNat ∧ p.op = 9 ∧ 9 ≤ q.op.toNat ∧ q.op = 15 :=
  ⟨{ op := 9 }, { op := 15 }, by decide⟩
theorem witness_ErrorsChangeNothing : ∃ (i : Instr) (s t : State) (r : Response), exec i s = .next t ∧ t.rsp = some r ∧
    r.status ≠ .ok := ⟨.cfgwr 3 1, .reset, _, _, rfl, rfl, by decide⟩
theorem witness_EachErrorHasItsCause : ∃ (i : Instr) (s t : State) (r : Response), s.config.Legal ∧
    i.wellFormed s.config = true ∧ exec i s = .next t ∧ t.rsp = some r ∧ r.status = .illegalLen :=
  ⟨.decode [] 513, .reset, _, _, by decide, by decide, rfl, rfl, rfl⟩
theorem witness_EachRegisterHasItsWriters_lfsr : ∃ (i : Instr) (s t : State), exec i s = .next t ∧ t.lfsr ≠ s.lfsr ∧ t.tx ≠ none :=
  ⟨.send [] 0 0, .reset, _, rfl, by decide +kernel, by decide +kernel⟩
theorem witness_EachRegisterHasItsWriters_corruptT : ∃ (i : Instr) (s t : State), exec i s = .next t ∧ t.corruptT ≠ s.corruptT :=
  ⟨.cfgwr 0 1, .reset, _, rfl, by decide⟩
theorem witness_EachRegisterHasItsWriters_dropT : ∃ (i : Instr) (s t : State), exec i s = .next t ∧ t.dropT ≠ s.dropT :=
  ⟨.cfgwr 1 1, .reset, _, rfl, by decide⟩
theorem witness_PureCommandsReadNoRegister : ∃ (i : Instr) (s₁ s₂ t₁ t₂ : State), s₁ ≠ s₂ ∧
    (∀ buf blen dest, i ≠ .send buf blen dest) ∧ (∀ reg w, i ≠ .cfgwr reg w) ∧ (∀ reg, i ≠ .cfgrd reg) ∧
    s₁.config = s₂.config ∧ exec i s₁ = .next t₁ ∧ exec i s₂ = .next t₂ :=
  ⟨.toggle .zero, .reset, st 1 1 1, _, _, by decide, by simp, by simp, by simp, rfl, rfl, rfl⟩
theorem witness_EveryCommandButSendIsIdempotent : ∃ (i : Instr) (s t : State), (∀ buf blen dest, i ≠ .send buf blen dest) ∧
    exec i s = .next t := ⟨.cfgwr 0 0xFFFFFFFF, .reset, _, by simp, rfl⟩
theorem witness_ResponseFieldRanges_encode : ∃ (s t : State) (r : Response) (bytes : List Byte),
    exec (.encode .data .zero 0 [] 0) s = .next t ∧ t.rsp = some r ∧ r.buf = some bytes := ⟨.reset, _, _, _, rfl, rfl, rfl⟩
theorem witness_ResponseFieldRanges_decode : ∃ (s t : State) (r : Response), exec (.decode [0x80, 0x55] 2) s = .next t ∧
    t.rsp = some r ∧ r.status = .ok := ⟨.reset, _, _, rfl, rfl, rfl⟩
/-- Each of the six statuses is answered by some command. -/
theorem witness_ErrorWiresAreZero :
    (rspOf (exec .nop .reset)).map Response.status = some .ok ∧
    (rspOf (exec (.decode [] 0) .reset)).map Response.status = some .frameTruncated ∧
    (rspOf (exec (.compute .data .zero 64 []) .reset)).map Response.status = some .lengthConstraint ∧
    (rspOf (exec .reserved9 .reset)).map Response.status = some .illegalOp ∧
    (rspOf (exec (.cfgrd 3) .reset)).map Response.status = some .illegalReg ∧
    (rspOf (exec (.send [] 513 0) .reset)).map Response.status = some .illegalLen := by decide

/-! ## Witnesses: the environment -/

/-- A sender awaiting the acknowledgment of Scenario A's frame. -/
def awaiting : Sender := { block := .reset, number := .zero, phase := .awaitingAck frameA, timerArmed := true }

/-- Two peers at addresses 1 and 2, over the default transport. -/
def peers : SystemConfig := { rxBadPolicy := .silent, transport := .reliable, senderAddr := 1, receiverAddr := 2 }

/-- A system whose sender awaits it while that acknowledgment arrives. -/
def ackArrives : System :=
  { System.start peers .reset .reset with
    sender := awaiting, transit := [{ src := .receiver, dest := 1, bytes := [0x00, 0x00] }] }

theorem witness_SubmitOutcome : (Sender.start .reset).block.config.Legal ∧ (Sender.start .reset).phase = .idle ∧
    (List.replicate 63 (0 : Byte)).length ≤ 63 ∧ 63 < (List.replicate 64 (0 : Byte)).length ∧
    (List.replicate 255 (0 : Byte)).length ≤ 255 ∧ 255 < (List.replicate 256 (0 : Byte)).length ∧
    awaiting.block.config.Legal ∧ awaiting.phase = .awaitingAck frameA := by decide +kernel
theorem witness_TimeoutResendsTheStoredBytes : awaiting.phase = .awaitingAck frameA ∧ awaiting.timerArmed = true ∧
    frameA.length ≤ awaiting.block.config.bufCap ∧ (Sender.start .reset).timerArmed = false := by decide
/-- An acknowledgment that matches; one of the other number, one whose marker fails, a data unit, a byte that does not decode; an
idle sender. -/
theorem witness_SenderTogglesOnlyOnMatchingAcknowledgment : awaiting.phase = .awaitingAck frameA ∧ awaiting.number = .zero ∧
    (openFrame [0x00, 0x00] awaiting.block).2 = some { kind := .ack, seq := .zero, payload := [], valid := true } ∧
    (openFrame [0x40, 0x00] awaiting.block).2 = some { kind := .ack, seq := .one, payload := [], valid := true } ∧
    (openFrame [0x00, 0x01] awaiting.block).2 = some { kind := .ack, seq := .zero, payload := [], valid := false } ∧
    (openFrame frameA awaiting.block).2 = some { kind := .data, seq := .zero, payload := ciao, valid := true } ∧
    (openFrame [0x84] awaiting.block).2 = none ∧ (Sender.start .reset).phase = .idle ∧
    (ackArrives.handle (.arrive .receiver 1)).sender.number ≠ ackArrives.sender.number := by decide
theorem witness_DuplicateIsDeliveredOnce : (Receiver.start .reset).block.config.Legal ∧ ciao.length ≤ 63 ∧
    (openFrame frameA State.reset).2 = some { kind := .data, seq := .zero, payload := ciao, valid := true } ∧
    (Receiver.start .reset).expected = .zero ∧ ({ Receiver.start .reset with expected := .one } : Receiver).expected ≠ .zero ∧
    (Receiver.start .reset).block.corruptT = 0 ∧ (Receiver.start .reset).block.dropT = 0 := by decide
/-- P4: the corrupted acknowledgment, and a data unit whose marker fails; bytes that do not decode. -/
theorem witness_BadFrameIsNotDelivered :
    ((openFrame [0x40, 0x01] State.reset).2.map Opened.kind = some .ack) ∧
    ((openFrame [0x84, 0x63, 0x69, 0x61, 0x6F, 0x40] State.reset).2.map (fun f => (f.kind, f.valid)) =
      some (.data, false)) ∧
    ((openFrame [0x84] State.reset).2 = none) := by decide
theorem witness_ExactlyOnceInOrderDelivery : peers.Legal ∧ State.reset.config.Legal ∧ xor.config.Legal ∧
    ∀ e ∈ [Event.submit ciao, .arrive .sender 2, .atSenderBlock (.command { op := 6, dest := 3 })], e.LeavesStreamAlone peers := by
  refine ⟨by decide, by decide, by decide, ?_⟩
  simp [Event.LeavesStreamAlone, Event.foreignDest, peers]
  decide
theorem witness_TransparentChannelDelivers : peers.Legal ∧ State.reset.config.Legal ∧ State.reset.corruptT = 0 ∧
    State.reset.dropT = 0 ∧ ciao.length ≤ 63 := by decide
theorem witness_CommandPresentedIsEventuallyPerformed : ∃ (s : State) (before rest : List HostInput) (inp : HostInput) (i : Instr),
    before.length = 2 ∧ s.inputs = before ++ inp :: rest ∧ decodeInput inp = some i :=
  ⟨{ State.reset with inputs := [.idle, .reset none, .command { op := 8 }] }, [.idle, .reset none], [], _, _, rfl, rfl, rfl⟩
/-- A datagram in transit to each peer, two to a third endpoint, and none between another pair; both kinds of transport. -/
theorem witness_TransportDeliversInOrder :
    let y (t : Transport) : System :=
      { System.start { peers with transport := t } .reset .reset with
        transit :=
          [{ src := .sender, dest := 3, bytes := [1] }, { src := .sender, dest := 2, bytes := frameA },
            { src := .receiver, dest := 1, bytes := [0x00, 0x00] }, { src := .sender, dest := 3, bytes := [2] }] }
    (y .reliable).flow .sender 2 = [frameA] ∧ (y .reliable).config.receiverAddr = 2 ∧
    (y .reliable).flow .receiver 1 = [[0x00, 0x00]] ∧ (y .reliable).config.senderAddr = 1 ∧
    (y .reliable).flow .sender 3 = [[1], [2]] ∧ (y .reliable).flow (.other 3) 2 = [] ∧
    (y .reliable).config.transport = .reliable ∧ (y .lossy).config.transport = .lossy := by decide
/-- The sender awaits, and its acknowledgment is in transit: the invariant holds, and an arrival leaves the stream alone. -/
theorem witness_EveryEventKeepsTheAlternatingBit : ∃ (y : System) (e : Event), y.Inv ∧ e.LeavesStreamAlone y.config ∧
    y.sender.phase = .awaitingAck frameA ∧ y.handle e ≠ y := by
  refine ⟨{ ackArrives with
    receiver := { Receiver.start .reset with expected := .one, delivered := [ciao] }, submitted := [ciao] },
    .arrive .receiver 1, ⟨by decide, by decide, by decide, by unfold System.OnlyPeersSpeak; decide, rfl, [], ciao, by decide, rfl, by decide, rfl, .inr
      ⟨rfl, rfl, fun d h => absurd h (by simp [System.data, System.flow, flow, ackArrives, Datagram.joins]), [], _, rfl,
        fun d h => absurd h (by simp), ?_⟩⟩, ?_, rfl, by decide⟩
  · intro d h
    have : d = [0x00, 0x00] := by
      simpa [System.acks, System.flow, flow, ackArrives, Datagram.joins, System.start, peers] using h
    exact ⟨0x00, by rw [this]; decide⟩
  · intro a h; cases h

/-- An endless run in which a payload is submitted, arrives and is acknowledged, and nothing is left to do. -/
def fairEvents : Nat → Event
  | 0 => .submit ciao
  | 1 => .arrive .sender 2
  | 2 => .arrive .receiver 1
  | _ => .timeout

/-- The system of that run. -/
def fairStart : System := System.start peers .reset .reset

theorem fairRun_transit : (fairStart.after fairEvents 1).transit = [{ src := .sender, dest := 2, bytes := frameA }] ∧
    (fairStart.after fairEvents 2).transit = [{ src := .receiver, dest := 1, bytes := [0x00, 0x00] }] ∧
    (fairStart.after fairEvents 3).transit = [] ∧ (fairStart.after fairEvents 3).sender.timerArmed = false ∧
    (fairStart.after fairEvents 3).handle .timeout = fairStart.after fairEvents 3 := by decide +kernel

theorem fairRun_rest (k : Nat) : fairStart.after fairEvents (3 + k) = fairStart.after fairEvents 3 := by
  induction k with
  | zero => rfl
  | succ k ih =>
    have : fairEvents (3 + k) = .timeout := by rw [Nat.add_comm]; rfl
    rw [← Nat.add_assoc, System.after, this, ih, fairRun_transit.2.2.2.2]

theorem witness_FairRunDeliversEverySubmission : peers.Legal ∧ peers.transport = .reliable ∧ State.reset.config.Legal ∧
    (∀ n, (fairEvents n).LeavesStreamAlone peers) ∧ fairStart.Fair fairEvents ∧ fairStart.FairDraws fairEvents := by
  obtain ⟨h1, h2, h3, h4, _⟩ := fairRun_transit
  have rest : ∀ n, 3 ≤ n → fairStart.after fairEvents n = fairStart.after fairEvents 3 ∧ fairEvents n = .timeout := by
    intro n hn
    obtain ⟨k, rfl⟩ := Nat.exists_eq_add_of_le hn
    exact ⟨fairRun_rest k, by rw [Nat.add_comm]; rfl⟩
  refine ⟨by decide, rfl, by decide, fun n a h => ?_, ⟨fun n src dest h => ⟨n, le_refl n, ?_⟩, fun n h => ?_⟩, fun h => ?_, fun h => ?_⟩
  · match n with
    | 0 => cases h
    | 1 => cases h
    | 2 => cases h
    | n + 3 => cases h
  · match n with
    | 0 => exact absurd rfl h
    | 1 =>
      have : Endpoint.sender = src ∧ 2 = dest := by simpa [System.flow, h1, flow, Datagram.joins] using h
      rw [← this.1, ← this.2]; rfl
    | 2 =>
      have : Endpoint.receiver = src ∧ 1 = dest := by simpa [System.flow, h2, flow, Datagram.joins] using h
      rw [← this.1, ← this.2]; rfl
    | n + 3 => exact absurd (by rw [(rest (n + 3) (by omega)).1, System.flow, h3]; rfl) h
  · exact ⟨n + 3, by omega, .inl rfl⟩
  · obtain ⟨m, hm, _, ha⟩ := h 3
    rw [(rest m hm).1, h4] at ha
    cases ha
  · obtain ⟨m, hm, _, _, _, _, he, _⟩ := h 3
    rw [(rest m hm).2] at he
    cases he

end Sys2Proof.Tests
end

/-! The scope statements: what a step performs, which command touches which state, and what the pure commands depend on
(spec/00_scope.md R5 to R7; spec/10_state.md R25, R33). -/

namespace Sys2Proof.Machine

/-! ## A step and the instruction it performs -/

/-- An input that presents an instruction is taken as that instruction. -/
theorem fetch_of_decodeInput {s : State} {inp : HostInput} {rest : List HostInput} {i : Instr}
    (hi : s.inputs = inp :: rest) (hd : decodeInput inp = some i) : fetch s = .issue i { s with inputs := rest } := by
  obtain ⟨h, _⟩ | ⟨_, h, _⟩ | ⟨_, _, h, _⟩ | ⟨_, _, j, h, hj, hf⟩ := fetch_cases s
  · cases hi.symm.trans h
  · cases hi.symm.trans h; cases hd
  · cases hi.symm.trans h; cases hd
  · cases hi.symm.trans h
    cases hd.symm.trans hj
    exact hf

/-- Settles O1: the input is fetched as the instruction it presents, and a step performs what it fetched. -/
theorem stepRunsDecodedInstruction : Obligations.StepRunsDecodedInstruction := by
  intro s inp rest i hi hd
  rw [step, fetch_of_decodeInput hi hd]

/-- An instruction that ends in `t` keeps the build and the inputs to come. -/
theorem exec_config_inputs {i : Instr} {s t : State} (h : exec i s = .next t) :
    t.config = s.config ∧ t.inputs = s.inputs := by
  obtain ⟨u, hu, _, hc, hin⟩ := exec_keeps i s
  cases h.symm.trans hu
  exact ⟨hc, hin⟩

/-- Settles O9, by what the step fetched: silence and reset write no build, and no instruction does. -/
theorem buildNeverChanges : Obligations.BuildNeverChanges := by
  intro s t h
  obtain ⟨_, hf⟩ | ⟨_, _, hf⟩ | ⟨_, _, _, hf⟩ | ⟨_, _, i, _, _, hf⟩ := fetch_cases s
  · rw [step, hf] at h; cases h; rfl
  · rw [step, hf] at h; cases h; rfl
  · rw [step, hf] at h; cases h; rfl
  · rw [step, hf] at h
    exact (exec_config_inputs h).1

/-! ## The writers of each register -/

/-- A register write changes the register of its index alone. -/
theorem writeRegister_changes {reg : RegIndex} {w : Word} {s u : State} (h : writeRegister reg w s = some u) :
    (u.lfsr ≠ s.lfsr → reg = 2) ∧ (u.corruptT ≠ s.corruptT → reg = 0) ∧ (u.dropT ≠ s.dropT → reg = 1) := by
  obtain ⟨hr, hw⟩ | ⟨hr, hw⟩ | ⟨hr, hw⟩ | ⟨_, hw⟩ := writeRegister_cases reg w s
  · cases h.symm.trans hw; simp [hr]
  · cases h.symm.trans hw; simp [hr]
  · cases h.symm.trans hw; simp [hr]
  · cases h.symm.trans hw

/-- Settles O45, by the three things an instruction can do: answer only, write the register of a CFGWR, or perform a SEND. -/
theorem eachRegisterHasItsWriters : Obligations.EachRegisterHasItsWriters := by
  intro i s t h
  have hkeep := exec_config_inputs h
  obtain ⟨r, e⟩ | ⟨reg, w, u, rfl, hw, e⟩ | ⟨buf, blen, dest, rfl, hlen, e⟩ := exec_effect i s
  · cases h.symm.trans e
    simp
  · obtain ⟨hl, hc, hd⟩ := writeRegister_changes hw
    cases h.symm.trans e
    exact ⟨fun hne => .inr ⟨w, by rw [hl hne]⟩, fun hne => ⟨w, by rw [hc hne]⟩, fun hne => ⟨w, by rw [hd hne]⟩,
      fun hne => absurd rfl hne, hkeep⟩
  · cases h.symm.trans e
    exact ⟨fun _ => .inl ⟨buf, blen, dest, rfl, hlen⟩, fun hne => absurd rfl hne, fun hne => absurd rfl hne,
      fun _ => ⟨buf, blen, dest, rfl, hlen⟩, hkeep⟩

/-! ## The pure commands -/

/-- `f` only answers, and what it answers is a function of the build: no register is read or written, and there is no link
transaction (R6, R25). -/
def AnswersByBuild (f : State → Result) : Prop := ∃ r : Config → Response, ∀ s, f s = finish (r s.config) s

/-- Ending with a response that the operands and the build fix. -/
theorem answersByBuild_finish (r : Config → Response) : AnswersByBuild fun s => finish (r s.config) s := ⟨r, fun _ => rfl⟩

/-- The error path answers the status alone. -/
theorem answersByBuild_raise (e : Status) : AnswersByBuild (raise e) := answersByBuild_finish fun _ => { status := e }

/-- A check that reads the operands and the build only chooses between two such operations. -/
theorem AnswersByBuild.ite (p : Config → Prop) [DecidablePred p] {f g : State → Result} (hf : AnswersByBuild f)
    (hg : AnswersByBuild g) : AnswersByBuild fun s => if p s.config then f s else g s := by
  obtain ⟨rf, hf⟩ := hf
  obtain ⟨rg, hg⟩ := hg
  refine ⟨fun c => if p c then rf c else rg c, fun s => ?_⟩
  by_cases h : p s.config
  · simp only [h, if_true, hf]
  · simp only [h, if_false, hg]

/-- DECODE checks its length against the capacity; the rest is a function of its bytes. -/
theorem answersByBuild_decodeBuffer (buf : List Byte) (blen : Nat) : AnswersByBuild (decodeBuffer buf blen) := by
  refine .ite (fun c => lengthIllegal c blen = true) (answersByBuild_raise _) ?_
  match parseFrame (takeBytes blen buf) with
  | .error e => exact answersByBuild_raise _
  | .ok (f, used) => exact answersByBuild_finish fun _ => decodeResponse f used

/-- Every instruction but SEND, CFGWR and CFGRD answers by the build alone. -/
theorem answersByBuild_exec {i : Instr} (hsend : ∀ buf blen dest, i ≠ .send buf blen dest)
    (hcfgwr : ∀ reg w, i ≠ .cfgwr reg w) (hcfgrd : ∀ reg, i ≠ .cfgrd reg) : AnswersByBuild (exec i) := by
  cases i with
  | nop => exact answersByBuild_finish fun _ => _
  | encode kind seq plen =>
    exact .ite (fun _ => payloadTooLong kind plen = true) (answersByBuild_raise _) (answersByBuild_finish fun _ => _)
  | decode buf blen => exact answersByBuild_decodeBuffer buf blen
  | compute kind seq plen buf =>
    exact .ite (fun _ => payloadTooLong kind plen = true) (answersByBuild_raise _)
      (answersByBuild_finish fun c => { status := .ok, integ := some (integrityFn c (operandContent kind seq plen buf)) })
  | verify kind seq plen buf integ =>
    exact .ite (fun _ => payloadTooLong kind plen = true) (answersByBuild_raise _)
      (answersByBuild_finish fun c =>
        { status := .ok, bool := some (decide (integ = integrityFn c (operandContent kind seq plen buf))) })
  | toggle => exact answersByBuild_finish fun _ => _
  | send buf blen dest => exact absurd rfl (hsend buf blen dest)
  | cfgwr reg w => exact absurd rfl (hcfgwr reg w)
  | cfgrd reg => exact absurd rfl (hcfgrd reg)
  | reserved9 | reservedA | reservedB | reservedC | reservedD | reservedE | reservedF => exact answersByBuild_raise _
  | frameAck | frameData => exact answersByBuild_decodeBuffer _ _

/-- Settles O46: a pure instruction answers a function of the build, and the two builds are one. -/
theorem pureCommandsReadNoRegister : Obligations.PureCommandsReadNoRegister := by
  intro i s₁ s₂ t₁ t₂ hsend hcfgwr hcfgrd hc h₁ h₂
  obtain ⟨r, hr⟩ := answersByBuild_exec hsend hcfgwr hcfgrd
  rw [finish_next ((hr s₁).symm.trans h₁), finish_next ((hr s₂).symm.trans h₂), hc]
  exact ⟨rfl, rfl, rfl⟩

end Sys2Proof.Machine

/-! The state statements: what a step leaves in the registers and on the ports, the instruction a presented command is, the
response fields and wires, and what the transport does with a link transaction (spec/10_state.md R21 to R34). -/

namespace Sys2Proof.Machine

/-! ## The register invariant -/

/-- Driving the ports writes no register. -/
theorem State.inv_drive {s : State} {r : Option Response} {t : Option LinkTx} : (s.drive r t).Inv ↔ s.Inv := Iff.rfl

/-- A word is zero when bit 0 and all bits above it are: a step shifts the upper bits down and feeds bit 0 back. -/
theorem lfsrStep_ne_zero {s : Word} (h : s ≠ 0) : lfsrStep s ≠ 0 := by
  intro h0
  have hzero (i : Nat) : (lfsrStep s).getLsbD i = false := by simp [h0]
  have hupper (i : Nat) (hi : i < 31) : s.getLsbD (i + 1) = false := by rw [← lfsrStep_getLsbD s i hi, hzero]
  have hfeedback : lfsrFeedback s = false := by rw [← lfsrStep_msb, hzero]
  have hbit10 : s.getLsbD 10 = false := hupper 9 (by decide)
  have hbit30 : s.getLsbD 30 = false := hupper 29 (by decide)
  have hbit31 : s.getLsbD 31 = false := hupper 30 (by decide)
  have hlowest : s.getLsbD 0 = false := by
    simpa only [lfsrFeedback, hbit10, hbit30, hbit31, Bool.xor_false] using hfeedback
  refine h (BitVec.eq_of_getLsbD_eq fun i hi => ?_)
  cases i with
  | zero => simpa using hlowest
  | succ i => simpa using hupper i (by omega)

/-- Any number of steps keeps the register non-zero (R21, R132). -/
theorem lfsrSteps_ne_zero (k : Nat) {s : Word} (h : s ≠ 0) : lfsrSteps k s ≠ 0 := by
  induction k generalizing s with
  | zero => exact h
  | succ k ih => exact ih (lfsrStep_ne_zero h)

/-- A SEND advances `LFSR` within its non-zero values. -/
theorem State.Inv.advanceLfsr {s : State} (h : s.Inv) : s.advanceLfsr.Inv := by
  obtain ⟨hlfsr, hkept⟩ := h
  exact ⟨lfsrSteps_ne_zero _ hlfsr, hkept⟩

/-- A threshold write is clamped (R162). -/
theorem clamp17_le (w : Word) : clamp17 w ≤ Config.thresholdMax := by
  unfold clamp17
  split
  · exact BitVec.le_refl _
  · simp only [BitVec.lt_def, BitVec.le_def, BitVec.toNat_setWidth, Config.thresholdMax, BitVec.toNat_ofNat] at *
    omega

/-- A seed of zero is replaced (R163). -/
theorem seedValue_ne_zero (w : Word) : seedValue w ≠ 0 := by
  unfold seedValue
  split
  · decide
  · assumption

/-- A register write leaves a legal value in the register it writes. -/
theorem State.Inv.writeRegister {reg : RegIndex} {w : Word} {s u : State} (h : s.Inv)
    (hw : writeRegister reg w s = some u) : u.Inv := by
  obtain ⟨hlfsr, hcorrupt, hdrop, hbuild⟩ := h
  obtain ⟨_, e⟩ | ⟨_, e⟩ | ⟨_, e⟩ | ⟨_, e⟩ := writeRegister_cases reg w s
  · cases hw.symm.trans e; exact ⟨hlfsr, clamp17_le w, hdrop, hbuild⟩
  · cases hw.symm.trans e; exact ⟨hlfsr, hcorrupt, clamp17_le w, hbuild⟩
  · cases hw.symm.trans e; exact ⟨seedValue_ne_zero w, hcorrupt, hdrop, hbuild⟩
  · cases hw.symm.trans e

/-- Every instruction keeps the registers legal. -/
theorem State.Inv.exec {i : Instr} {s t : State} (h : s.Inv) (he : exec i s = .next t) : t.Inv := by
  obtain ⟨r, e⟩ | ⟨reg, w, u, _, hw, e⟩ | ⟨buf, blen, dest, _, _, e⟩ := exec_effect i s
  · cases he.symm.trans e; exact State.inv_drive.mpr h
  · cases he.symm.trans e; exact State.inv_drive.mpr (h.writeRegister hw)
  · cases he.symm.trans e; exact State.inv_drive.mpr h.advanceLfsr

/-- Reset loads legal values, and leaves the build. -/
theorem State.inv_resetRegisters {s : State} (h : s.config.Legal) : s.resetRegisters.Inv :=
  ⟨(by decide : Config.lfsrReset ≠ 0), (by decide : 0#17 ≤ Config.thresholdMax),
    (by decide : 0#17 ≤ Config.thresholdMax), h⟩

/-- Everything a step can do: hold the registers, reset them, or perform the instruction presented. -/
theorem step_cases (s : State) :
    (s.inputs = [] ∧ step s = .next (s.drive none none)) ∨
    (∃ rest, s.inputs = .idle :: rest ∧ step s = .next ({ s with inputs := rest }.drive none none)) ∨
    (∃ c rest, s.inputs = .reset c :: rest ∧ step s = .next { s with inputs := rest }.resetRegisters) ∨
    (∃ inp rest i, s.inputs = inp :: rest ∧ decodeInput inp = some i ∧ step s = exec i { s with inputs := rest }) := by
  obtain ⟨hi, hf⟩ | ⟨rest, hi, hf⟩ | ⟨c, rest, hi, hf⟩ | ⟨inp, rest, i, hi, hd, hf⟩ := fetch_cases s
  · exact .inl ⟨hi, by rw [step, hf]⟩
  · exact .inr (.inl ⟨rest, hi, by rw [step, hf]⟩)
  · exact .inr (.inr (.inl ⟨c, rest, hi, by rw [step, hf]⟩))
  · exact .inr (.inr (.inr ⟨inp, rest, i, hi, hd, by rw [step, hf]⟩))

/-- Settles O7, by what a step can do. -/
theorem stepKeepsInvariant : Obligations.StepKeepsInvariant := by
  intro s t h hs
  have ⟨_, _, _, hbuild⟩ := h
  obtain ⟨_, e⟩ | ⟨rest, _, e⟩ | ⟨c, rest, _, e⟩ | ⟨inp, rest, i, _, _, e⟩ := step_cases s
  · cases hs.symm.trans e; exact State.inv_drive.mpr h
  · cases hs.symm.trans e; exact State.inv_drive.mpr h
  · cases hs.symm.trans e; exact State.inv_resetRegisters hbuild
  · have hrest : { s with inputs := rest }.Inv := h
    exact hrest.exec (e.symm.trans hs)

/-- Settles O8: the state after reset has the values a reset loads, and the default build is legal. -/
theorem resetMeetsInvariant : Obligations.ResetMeetsInvariant := State.inv_resetRegisters (s := State.reset) (by decide)

/-! ## Idle steps, reset, and one response per command -/

/-- Settles O2: an idle step only silences the ports. -/
theorem idleStepHoldsEverything : Obligations.IdleStepHoldsEverything := by
  constructor
  · intro s h
    obtain ⟨_, e⟩ | ⟨_, hi, _⟩ | ⟨_, _, hi, _⟩ | ⟨_, _, _, hi, _⟩ := step_cases s
    · exact e
    all_goals cases h.symm.trans hi
  · intro s rest h
    obtain ⟨hi, _⟩ | ⟨_, hi, e⟩ | ⟨_, _, hi, _⟩ | ⟨_, _, _, hi, hd, _⟩ := step_cases s
    all_goals cases h.symm.trans hi
    · exact e
    · cases hd

/-- Settles O3: a reset is taken as `resetRegisters`, whatever was in progress. -/
theorem resetInputLoadsResetValues : Obligations.ResetInputLoadsResetValues := by
  intro s c rest h
  obtain ⟨hi, _⟩ | ⟨_, hi, _⟩ | ⟨_, _, hi, e⟩ | ⟨_, _, _, hi, hd, _⟩ := step_cases s
  all_goals cases h.symm.trans hi
  · exact e
  · cases hd

/-- An input that presents an instruction presents it with `cmd_valid` and without `rst`. -/
theorem cmdValid_cmdReady_of_decodeInput {s : State} {inp : HostInput} {rest : List HostInput} {i : Instr}
    (hi : s.inputs = inp :: rest) (hd : decodeInput inp = some i) : s.cmdValid = true ∧ s.cmdReady = true := by
  cases inp with
  | command | datagram => simp [State.cmdValid, State.cmdReady, State.rstAsserted, hi]
  | idle | reset => cases hd

/-- Settles O5: silence and reset take no command and drive no port; an instruction always answers. -/
theorem oneResponsePerCommandTaken : Obligations.OneResponsePerCommandTaken := by
  intro s t hs
  obtain ⟨hi, e⟩ | ⟨rest, hi, e⟩ | ⟨c, rest, hi, e⟩ | ⟨inp, rest, i, hi, hd, e⟩ := step_cases s
  · cases hs.symm.trans e; simp [State.cmdValid, hi]
  · cases hs.symm.trans e; simp [State.cmdValid, hi]
  · cases hs.symm.trans e; simp [State.cmdReady, State.rstAsserted, hi]
  · obtain ⟨hvalid, hready⟩ := cmdValid_cmdReady_of_decodeInput hi hd
    obtain ⟨u, hu, hrsp, _, hin⟩ := exec_keeps i { s with inputs := rest }
    cases (hs.symm.trans e).trans hu
    exact ⟨by rw [hrsp, hvalid, hready]; rfl, fun _ => ⟨hvalid, hready⟩, by rw [hin, hi]; rfl⟩

/-! ## Decoding what is presented -/

/-- Bytes that are exactly one frame are taken as that frame's row. -/
theorem decodeDatagram_dataUnit {bytes payload : List Byte} {q : SeqBit} {m : Byte}
    (h : parseFrame bytes = .ok (.dataUnit q payload m, bytes.length)) : decodeDatagram bytes = .frameData q payload m := by
  simp [decodeDatagram, decodeFrameRow, h]

/-- The two bytes of an ACK are taken as its row, the unused header bits included. -/
theorem decodeDatagram_ackBytes (q : SeqBit) (unused : BitVec 6) (m : Byte) :
    decodeDatagram (ackBytes q unused m) = .frameAck q unused m := by
  simp [decodeDatagram, decodeFrameRow, ackBytes, parseFrame_cons]

/-- The bytes of a DATA frame are its content and its marker. -/
theorem dataBytes_eq_content (q : SeqBit) (payload : List Byte) (m : Byte) :
    dataBytes q payload m = content .data q payload ++ [m] := rfl

/-- The bytes of a DATA frame are taken as its row. -/
theorem decodeDatagram_dataBytes (q : SeqBit) {payload : List Byte} (m : Byte) (h : payload.length ≤ 63) :
    decodeDatagram (dataBytes q payload m) = .frameData q payload m := by
  apply decodeDatagram_dataUnit
  rw [dataBytes_eq_content, parseFrame_content q m h (by simp)]
  simp

/-- Settles O11: a command's code selects its own arm of the decoder, and a frame's bytes are parsed back. -/
theorem decodeOfEncodeIsIdentity : Obligations.DecodeOfEncodeIsIdentity := by
  intro c i hwf
  cases i with
  | frameAck q unused m => exact congrArg some (decodeDatagram_ackBytes q unused m)
  | frameData q payload m => exact congrArg some (decodeDatagram_dataBytes q m (of_decide_eq_true hwf))
  | nop | encode | decode | compute | verify | toggle | send | cfgwr | cfgrd => rfl
  | reserved9 | reservedA | reservedB | reservedC | reservedD | reservedE | reservedF => rfl

/-- Settles O13: in the arm of each code, the two ports agree on every field the arm names. -/
theorem unreadPortFieldsAreIgnored : Obligations.UnreadPortFieldsAreIgnored := by
  intro p q hop hframe hseq hinteg hbuf hdest hreg hwdata
  unfold decodeCommand
  rw [← hop]
  split
  case h_2 ho =>
    obtain ⟨hkind, hplen, hbytes⟩ := hframe (by simp [ho])
    rw [hkind, hseq (by simp [ho]), hplen, hbytes, hinteg (by simp [ho])]
  case h_3 ho =>
    obtain ⟨hbytes, hblen⟩ := hbuf (by simp [ho])
    rw [hbytes, hblen]
  case h_4 ho =>
    obtain ⟨hkind, hplen, hbytes⟩ := hframe (by simp [ho])
    rw [hkind, hseq (by simp [ho]), hplen, hbytes]
  case h_5 ho =>
    obtain ⟨hkind, hplen, hbytes⟩ := hframe (by simp [ho])
    rw [hkind, hseq (by simp [ho]), hplen, hbytes, hinteg (by simp [ho])]
  case h_6 ho => rw [hseq (by simp [ho])]
  case h_7 ho =>
    obtain ⟨hbytes, hblen⟩ := hbuf (by simp [ho])
    rw [hbytes, hblen, hdest ho]
  case h_8 ho => rw [hreg (by simp [ho]), hwdata ho]
  case h_9 ho => rw [hreg (by simp [ho])]
  all_goals rfl

/-! ## The response fields and wires -/

/-- What a frame found by the decoder can be: an Acknowledgment of two bytes, or a DataUnit of at most 63 payload bytes whose
frame lies within the bytes given (R93, R94). -/
theorem parseFrame_ok {bytes : List Byte} {f : Frame} {used : Nat} (h : parseFrame bytes = .ok (f, used)) :
    used ≤ bytes.length ∧
      ((∃ q m, f = .acknowledgment q m ∧ used = 2) ∨
        ∃ q payload m, f = .dataUnit q payload m ∧ payload.length ≤ 63 ∧ used = payload.length + 2) := by
  match bytes with
  | [] => cases h
  | [_] => cases h
  | hd :: second :: rest =>
    rw [parseFrame_cons] at h
    split at h
    · cases h
      exact ⟨by simp, .inl ⟨_, _, rfl, rfl⟩⟩
    · split at h
      · next hfits =>
        cases h
        have hlow : (headerLow hd).toNat < 64 := (headerLow hd).isLt
        have hlen : ((second :: rest).take (headerLow hd).toNat).length = (headerLow hd).toNat :=
          List.length_take_of_le (Nat.le_of_succ_le (Nat.le_of_succ_le_succ hfits))
        exact ⟨hfits, .inr ⟨_, _, _, rfl, by omega, by omega⟩⟩
      · cases h

/-- The bytes ENCODE writes for a payload it does not refuse: 2 to 65 (R30, R91). -/
theorem frameBytes_operandFrame_length {kind : Kind} (seq : SeqBit) {plen : Byte} (buf : List Byte) (integ : Byte)
    (h : payloadTooLong kind plen = false) :
    2 ≤ (frameBytes (operandFrame kind seq plen buf integ)).length ∧
      (frameBytes (operandFrame kind seq plen buf integ)).length ≤ 65 := by
  cases kind with
  | ack => simp [operandFrame, frameBytes]
  | data =>
    have hlen : plen.toNat ≤ 63 := Nat.not_lt.mp (of_decide_eq_false h)
    simp only [operandFrame, frameBytes, List.length_cons, List.length_append, takeBytes_length, List.length_nil]
    omega

/-- The fields DECODE drives for a frame the decoder found (R30, R93). -/
theorem decodeResponse_ranges {bytes : List Byte} {f : Frame} {used : Nat} (h : parseFrame bytes = .ok (f, used)) :
    ∃ (kind : Kind) (payload : List Byte) (plen : BitVec 6) (n : BitVec 7),
      (decodeResponse f used).kind = some kind ∧ (decodeResponse f used).buf = some payload ∧
      (decodeResponse f used).plen = some plen ∧ (decodeResponse f used).used = some n ∧
      plen.toNat = payload.length ∧ payload.length ≤ 63 ∧ (kind = .ack → payload = []) ∧
      n.toNat = payload.length + 2 ∧ n.toNat ≤ bytes.length := by
  obtain ⟨hused, ⟨q, m, rfl, rfl⟩ | ⟨q, payload, m, rfl, hlen, rfl⟩⟩ := parseFrame_ok h
  · exact ⟨_, _, _, _, rfl, rfl, rfl, rfl, rfl, by simp, by simp, rfl, hused⟩
  · have hn : (BitVec.ofNat 7 (payload.length + 2)).toNat = payload.length + 2 := by simp; omega
    exact ⟨_, _, _, _, rfl, rfl, rfl, rfl, by simp; omega, hlen, by simp, hn, by omega⟩

/-- Settles O48, by the length of a frame that ENCODE writes and of one that DECODE finds. -/
theorem responseFieldRanges : Obligations.ResponseFieldRanges := by
  constructor
  · intro kind seq plen buf integ s t r bytes h hr hb
    rw [exec, execEncode] at h
    split at h
    · rw [raise_next h] at hr
      cases hr; cases hb
    · next hfits =>
      rw [finish_next h] at hr
      cases hr; cases hb
      exact frameBytes_operandFrame_length seq buf integ (by simpa using hfits)
  · intro buf blen s t r h hr hok
    rw [exec, execDecode] at h
    obtain ⟨_, e⟩ | ⟨_, _, e⟩ | ⟨f, used, _, hp, e⟩ := decodeBuffer_cases buf blen s
    · rw [raise_next (e.symm.trans h)] at hr
      cases hr; cases hok
    · rw [raise_next (e.symm.trans h)] at hr
      cases hr; cases hok
    · rw [finish_next (e.symm.trans h)] at hr
      cases hr
      simpa using decodeResponse_ranges hp

/-- `f` ends in an error, or it answers with status `OK` (R10, R210). -/
def RaisesOrAnswersOk (f : Result) (s : State) : Prop :=
  (∃ e, f = raise e s) ∨ ∃ t r, f = .next t ∧ t.rsp = some r ∧ r.status = .ok

/-- A check ends in the error it names, or the command goes on. -/
theorem RaisesOrAnswersOk.ite {p : Prop} [Decidable p] {e : Status} {f : Result} {s : State}
    (hf : RaisesOrAnswersOk f s) : RaisesOrAnswersOk (if p then raise e s else f) s := by
  by_cases h : p
  · rw [if_pos h]; exact .inl ⟨e, rfl⟩
  · rw [if_neg h]; exact hf

/-- The frame decoder's operation raises its two errors, or answers with a frame's fields. -/
theorem raisesOrAnswersOk_decodeBuffer (buf : List Byte) (blen : Nat) (s : State) :
    RaisesOrAnswersOk (decodeBuffer buf blen s) s := by
  obtain ⟨_, e⟩ | ⟨_, _, e⟩ | ⟨f, used, _, _, e⟩ := decodeBuffer_cases buf blen s
  · exact .inl ⟨_, e⟩
  · exact .inl ⟨_, e⟩
  · exact .inr ⟨_, _, e, rfl, by cases f <;> rfl⟩

/-- Every instruction raises an error, and then changes nothing else, or answers with status `OK` (R217). -/
theorem raisesOrAnswersOk_exec (i : Instr) (s : State) : RaisesOrAnswersOk (exec i s) s := by
  cases i with
  | nop | toggle => exact .inr ⟨_, _, rfl, rfl, rfl⟩
  | encode | compute | verify | send => exact .ite (.inr ⟨_, _, rfl, rfl, rfl⟩)
  | decode | frameAck | frameData => exact raisesOrAnswersOk_decodeBuffer _ _ s
  | cfgwr reg w =>
    rw [exec, execCfgwr]
    split
    · exact .inr ⟨_, _, rfl, rfl, rfl⟩
    · exact .inl ⟨_, rfl⟩
  | cfgrd reg =>
    rw [exec, execCfgrd]
    split
    · exact .inr ⟨_, _, rfl, rfl, rfl⟩
    · exact .inl ⟨_, rfl⟩
  | reserved9 | reservedA | reservedB | reservedC | reservedD | reservedE | reservedF => exact .inl ⟨_, rfl⟩

/-- On an error a response carries its status alone (R10, R210). -/
theorem response_eq_of_status_ne_ok {i : Instr} {s t : State} {r : Response} (h : exec i s = .next t)
    (hr : t.rsp = some r) (hne : r.status ≠ .ok) : r = { status := r.status } := by
  obtain ⟨e, he⟩ | ⟨u, r', hu, hr', hok⟩ := raisesOrAnswersOk_exec i s
  · rw [raise_next (he.symm.trans h)] at hr
    cases hr; rfl
  · cases h.symm.trans hu
    cases hr.symm.trans hr'
    exact absurd hok hne

@[simp] theorem Response.wires_status (undriven : ResponseWires) (r : Response) :
    (r.wires undriven).status = r.status.code := rfl

/-- A response that carries an error status alone shows zeros beside it (R30, R210). -/
theorem Response.wires_of_status_alone (undriven : ResponseWires) {e : Status} (h : e ≠ .ok) :
    ({ status := e } : Response).wires undriven =
      { valid := true, status := e.code, buf := [], kind := false, seq := false, plen := 0, integ := 0, used := 0
        bool := false, rdata := 0 } := by
  simp [Response.wires, h]

/-- Settles O49: the status wires are the status's code, and an error's response carries nothing but its status. -/
theorem errorWiresAreZero : Obligations.ErrorWiresAreZero := by
  intro i s t r undriven h hr
  have hcode {e : Status} (he : r.status = e) : (r.wires undriven).status = e.code := by rw [Response.wires_status, he]
  refine ⟨rfl, hcode, hcode, hcode, hcode, hcode, hcode, fun hne => ?_⟩
  rw [response_eq_of_status_ne_ok h hr hne]
  exact Response.wires_of_status_alone undriven hne

/-! ## The transport -/

/-- What `submit` leaves: the sender, its link transaction behind what was in transit, and the payload recorded where there is
nothing to report (R177). -/
theorem System.handle_submit (y : System) (payload : List Byte) :
    let r := y.sender.submit y.config.receiverAddr payload
    y.handle (.submit payload) =
      { y with
        sender := r.sender
        transit := handOver .sender r.link y.transit
        reports := y.reports ++ r.report.toList
        submitted := y.submitted ++ (if r.report = none then [payload] else []) } := by
  intro r
  have hr : y.handle (.submit payload) = (y.afterSender r).recordSubmit payload r.report := rfl
  rw [hr]
  cases hrep : r.report with
  | none => simp [recordSubmit, afterSender, emit, hrep]
  | some e => simp [recordSubmit, afterSender, emit, hrep]

/-- An arrival on a pair with nothing in transit does nothing. -/
theorem System.handle_arrive_of_flow_nil {y : System} {src : Endpoint} {dest : Dest} (h : y.flow src dest = []) :
    y.handle (.arrive src dest) = y := by
  simp [handle, takeOldest_eq_none.mpr h]

/-- An arrival on a pair with something in transit takes the oldest of it out and delivers it; every other flow stays. -/
theorem System.handle_arrive_of_flow_cons {y : System} {src : Endpoint} {dest : Dest} {d : List Byte}
    {rest : List (List Byte)} (h : y.flow src dest = d :: rest) :
    ∃ left : List Datagram, left.length + 1 = y.transit.length ∧ Machine.flow src dest left = rest ∧
      (∀ src' dest', ¬(src' = src ∧ dest' = dest) → Machine.flow src' dest' left = y.flow src' dest') ∧
      y.handle (.arrive src dest) = { y with transit := left }.deliver { src, dest, bytes := d } := by
  cases ht : takeOldest src dest y.transit with
  | none => cases (takeOldest_eq_none.mp ht).symm.trans h
  | some p =>
    obtain ⟨oldest, left⟩ := p
    obtain ⟨hsrc, hdest, hflow, hother, _⟩ := takeOldest_eq_some ht
    obtain ⟨hd, hrest⟩ := List.cons_eq_cons.mp (hflow.symm.trans h)
    refine ⟨left, takeOldest_length ht, hrest, fun src' dest' hne => hother src' dest' fun hs => hne ⟨hs.1.symm, hs.2.symm⟩, ?_⟩
    subst hsrc hdest hd
    simp [handle, ht]

/-- A lossy transport loses the head of the pair's own flow; no other flow changes. -/
theorem flow_lose_lossy (src src' : Endpoint) (dest dest' : Dest) (l : List Datagram) :
    flow src' dest' (Transport.lossy.lose src dest l) =
      if src = src' ∧ dest = dest' then (flow src' dest' l).tail else flow src' dest' l := by
  cases h : takeOldest src dest l with
  | none =>
    split
    · next hs =>
      obtain ⟨rfl, rfl⟩ := hs
      simp [Transport.lose, h, takeOldest_eq_none.mp h]
    · simp [Transport.lose, h]
  | some p =>
    obtain ⟨d, rest⟩ := p
    obtain ⟨_, _, hflow, hother, _⟩ := takeOldest_eq_some h
    split
    · next hs =>
      obtain ⟨rfl, rfl⟩ := hs
      simp [Transport.lose, h, hflow]
    · next hs => simp [Transport.lose, h, hother _ _ hs]

/-- Settles O60: each hand-over is `handOver` behind what was in transit, an arrival delivers the oldest of its pair, and only a
lossy transport loses or duplicates. -/
theorem transportDeliversInOrder : Obligations.TransportDeliversInOrder := by
  refine ⟨System.handle_submit, fun y => rfl, fun y inp => rfl, fun y inp => rfl, fun y addr x => rfl,
    fun y src dest h => System.handle_arrive_of_flow_nil h, fun y src dest d rest h => ?arrival,
    fun y src dest h => ?reliable, fun y src dest h => ?lossy⟩
  case arrival =>
    obtain ⟨left, hlen, hrest, hother, he⟩ := System.handle_arrive_of_flow_cons h
    refine ⟨left, hlen, hrest, hother, fun hr => ?_, fun hs hr => ?_, fun hs hr => ?_⟩
    · rw [he, System.deliver, if_pos hr]; rfl
    · rw [he, System.deliver, if_neg hr, if_pos hs]; rfl
    · rw [he, System.deliver, if_neg hr, if_neg hs]
  case reliable => simp [System.handle, h, Transport.lose, Transport.duplicate]
  case lossy =>
    refine ⟨_, _, rfl, rfl, ?_, ?_, fun src' dest' hne => ?_⟩
    · rw [h, flow_lose_lossy, if_pos ⟨rfl, rfl⟩]; rfl
    · rw [h, Transport.duplicate, flow_duplicateOldest, if_pos ⟨rfl, rfl⟩]; rfl
    · have hne' : ¬(src = src' ∧ dest = dest') := fun hs => hne ⟨hs.1.symm, hs.2.symm⟩
      rw [h, flow_lose_lossy, if_neg hne', Transport.duplicate, flow_duplicateOldest, if_neg hne']
      exact ⟨rfl, rfl⟩

end Sys2Proof.Machine

/-! The memory statements: which bytes of a buffer operand a command reads, which commands are idempotent, and how the one shift
register serves the SENDs of all hosts (spec/20_memory.md R41 to R49). -/

namespace Sys2Proof.Machine

/-! ## The bytes of a buffer operand -/

/-- Buffers that agree below a length are cut to it alike. -/
theorem takeBytes_congr {n : Nat} {b₁ b₂ : List Byte} (h : ∀ i < n, b₁.getD i 0 = b₂.getD i 0) :
    takeBytes n b₁ = takeBytes n b₂ := by
  refine List.ext_getElem (by simp) fun i hi₁ hi₂ => ?_
  have hi : i < n := by simpa using hi₁
  rw [List.getElem_eq_getD 0, List.getElem_eq_getD 0, takeBytes_getD n b₁ i hi, takeBytes_getD n b₂ i hi, h i hi]

/-- DECODE reads its buffer cut to its length. -/
theorem decodeBuffer_congr {n : Nat} {b₁ b₂ : List Byte} (h : takeBytes n b₁ = takeBytes n b₂) (s : State) :
    decodeBuffer b₁ n s = decodeBuffer b₂ n s := by
  rw [decodeBuffer, decodeBuffer, h]

/-- SEND reads its buffer cut to its length. -/
theorem execSend_congr {n : Nat} {b₁ b₂ : List Byte} (h : takeBytes n b₁ = takeBytes n b₂) (dest : Dest) (s : State) :
    execSend b₁ n dest s = execSend b₂ n dest s := by
  rw [execSend, execSend, h]

/-- The frame that ENCODE's operands name has the payload cut to its length, or none. -/
theorem operandFrame_congr {plen : Byte} {b₁ b₂ : List Byte} (h : takeBytes plen.toNat b₁ = takeBytes plen.toNat b₂)
    (kind : Kind) (seq : SeqBit) (integ : Byte) :
    operandFrame kind seq plen b₁ integ = operandFrame kind seq plen b₂ integ := by
  cases kind with
  | ack => rfl
  | data => rw [operandFrame, operandFrame, h]

/-- The content that COMPUTE's and VERIFY's operands name has the payload cut to its length. -/
theorem operandContent_congr {plen : Byte} {b₁ b₂ : List Byte} (h : takeBytes plen.toNat b₁ = takeBytes plen.toNat b₂)
    (kind : Kind) (seq : SeqBit) : operandContent kind seq plen b₁ = operandContent kind seq plen b₂ := by
  rw [operandContent, operandContent, h]

/-- Settles O19: each of the five commands reads its buffer cut to the length operand, and there the two agree. -/
theorem bytesAboveTheLengthAreNeverRead : Obligations.BytesAboveTheLengthAreNeverRead := by
  intro b₁ b₂ n s hagree
  have hcut : takeBytes n b₁ = takeBytes n b₂ := takeBytes_congr hagree
  refine ⟨decodeBuffer_congr hcut s, fun dest => execSend_congr hcut dest s, ?_⟩
  rintro kind seq plen integ rfl
  simp only [exec, execEncode, execCompute, execVerify, operandFrame_congr hcut, operandContent_congr hcut, and_self]

/-! ## Repeating a command -/

/-- A register write neither reads nor changes the output ports. -/
theorem writeRegister_drive (reg : RegIndex) (w : Word) (s : State) (r : Option Response) (x : Option LinkTx) :
    writeRegister reg w (s.drive r x) = (writeRegister reg w s).map (·.drive r x) := by
  obtain ⟨rfl, h⟩ | ⟨rfl, h⟩ | ⟨rfl, h⟩ | ⟨rfl, h⟩ := writeRegister_cases reg w s
  all_goals rw [h]; rfl

/-- Writing the same word to the same register again changes nothing. -/
theorem writeRegister_again {reg : RegIndex} {w : Word} {s u : State} (h : writeRegister reg w s = some u) :
    writeRegister reg w u = some u := by
  obtain ⟨rfl, e⟩ | ⟨rfl, e⟩ | ⟨rfl, e⟩ | ⟨_, e⟩ := writeRegister_cases reg w s
  · cases h.symm.trans e; rfl
  · cases h.symm.trans e; rfl
  · cases h.symm.trans e; rfl
  · cases h.symm.trans e

/-- No instruction reads what the last step left on the output ports. -/
theorem exec_drive (i : Instr) (s : State) (r : Option Response) (x : Option LinkTx) : exec i (s.drive r x) = exec i s := by
  cases i with
  | cfgwr reg w =>
    rw [exec, exec, execCfgwr, execCfgwr, writeRegister_drive]
    cases writeRegister reg w s <;> rfl
  | nop | encode | decode | compute | verify | toggle | send | cfgrd | frameAck | frameData => rfl
  | reserved9 | reservedA | reservedB | reservedC | reservedD | reservedE | reservedF => rfl

/-- Settles O47: a command that only answers leaves the next one a state that differs in the output ports alone, which it does not
read; and a register write repeated changes nothing. -/
theorem everyCommandButSendIsIdempotent : Obligations.EveryCommandButSendIsIdempotent := by
  intro i s t hsend h
  obtain ⟨r, e⟩ | ⟨reg, w, u, rfl, hw, e⟩ | ⟨buf, blen, dest, hi, _, _⟩ := exec_effect i s
  · cases h.symm.trans e
    rw [exec_drive, e]
  · cases h.symm.trans e
    rw [exec_drive, exec, execCfgwr, writeRegister_again hw]
    rfl
  · exact absurd hi (hsend buf blen dest)

/-! ## The one sequence of random bits -/

/-- A presented command is a CFGWR only with the code of CFGWR, and then register and value are the port's. -/
theorem decodeCommand_eq_cfgwr {p : CmdPort} {reg : RegIndex} {w : Word} (h : decodeCommand p = .cfgwr reg w) :
    p.op = 7 ∧ p.reg = reg ∧ p.wdata = w := by
  unfold decodeCommand at h
  split at h
  case h_8 ho =>
    cases h
    exact ⟨BitVec.eq_of_toNat_eq ho, rfl, rfl⟩
  all_goals cases h

/-- The code of SEND makes a presented command a SEND. -/
theorem decodeCommand_of_op_send {p : CmdPort} (h : p.op = 6) : decodeCommand p = .send p.buf p.blen p.dest := by
  simp [decodeCommand, h]

/-- A SEND of legal length advances `LFSR` (R139). -/
theorem lfsr_of_exec_send {buf : List Byte} {blen : Nat} {dest : Dest} {s t : State} (hlen : blen ≤ s.config.bufCap)
    (h : exec (.send buf blen dest) s = .next t) : t.lfsr = lfsrSteps Config.stepsPerSend s.lfsr := by
  rw [exec, execSend, lengthIllegal, decide_eq_false (Nat.not_lt.mpr hlen)] at h
  cases h
  rfl

/-- The command presented is a SEND that the block does not refuse (R139). -/
abbrev SendsWithin (c : Config) (p : CmdPort) : Prop := p.op = 6 ∧ p.blen ≤ c.bufCap

/-- One command that does not seed `LFSR` takes the bits of one SEND, or of none (R139, R147). -/
theorem lfsr_of_exec_decodeCommand {p : CmdPort} {s t : State} (hseed : p.op = 7 → p.reg ≠ 2)
    (h : exec (decodeCommand p) s = .next t) :
    t.lfsr = lfsrAtSend (if SendsWithin s.config p then 1 else 0) s.lfsr := by
  by_cases hp : SendsWithin s.config p
  · rw [decodeCommand_of_op_send hp.1] at h
    rw [if_pos hp, lfsr_of_exec_send hp.2 h]
    rfl
  · rw [if_neg hp]
    by_contra hne
    obtain ⟨hwriters, _⟩ := eachRegisterHasItsWriters _ s t h
    obtain ⟨buf, blen, dest, hi, hlen⟩ | ⟨w, hi⟩ := hwriters hne
    · obtain ⟨hop, _, rfl, _⟩ := decodeCommand_eq_send hi
      exact hp ⟨hop, hlen⟩
    · obtain ⟨hop, hreg, _⟩ := decodeCommand_eq_cfgwr hi
      exact hseed hop hreg

/-- The bits taken by `j` SENDs and then by `k`. -/
theorem lfsrAtSend_add (j k : Nat) (v : Word) : lfsrAtSend (j + k) v = lfsrAtSend k (lfsrAtSend j v) := by
  rw [lfsrAtSend, Nat.mul_add, lfsrSteps_add]
  rfl

/-- A run that begins with a step to `t` goes on from `t`. -/
theorem run_succ {n : Nat} {s t : core.State} (h : step s = .next t) : core.run (n + 1) s = core.run n t := by
  have hcore : core.step s = .next t := h
  rw [Host.Core.run, hcore]

/-- A step that finds a command presented performs it, and keeps the build and the later inputs. -/
theorem step_command {s : State} {p : CmdPort} {rest : List HostInput} (hi : s.inputs = .command p :: rest) :
    ∃ t, step s = .next t ∧ exec (decodeCommand p) { s with inputs := rest } = .next t ∧ t.config = s.config ∧
      t.inputs = rest := by
  obtain ⟨t, h, _, hc, hin⟩ := exec_keeps (decodeCommand p) { s with inputs := rest }
  exact ⟨t, (stepRunsDecodedInstruction s _ rest _ hi rfl).trans h, h, hc, hin⟩

/-- Settles O37, by induction on the commands: the first takes the bits of one SEND or of none, the others go on from there. -/
theorem eachSendTakesTheNextThirtyTwoBits : Obligations.EachSendTakesTheNextThirtyTwoBits := by
  intro s ports rest
  induction ports generalizing s with
  | nil => exact fun hi _ => ⟨s, rfl, hi, rfl⟩
  | cons p ports ih =>
    intro hi hseed
    obtain ⟨hp, hports⟩ := List.forall_mem_cons.mp hseed
    obtain ⟨u, hstep, hexec, hc, hin⟩ := step_command hi
    obtain ⟨t, hrun, hrest, hlfsr⟩ := ih u hin hports
    refine ⟨t, (run_succ hstep).trans hrun, hrest, ?_⟩
    rw [hlfsr, lfsr_of_exec_decodeCommand hp hexec, ← lfsrAtSend_add, hc, List.countP_cons, Nat.add_comm]
    simp only [decide_eq_true_eq]

end Sys2Proof.Machine

/-! The encoding statements: the words of the spec that are decoded, the frame format each header byte selects, how a frame handed
to the decoder is answered, and the reserved codes (spec/30_encoding.md R60 to R71). -/

namespace Sys2Proof.Machine

/-! ## The header byte -/

/-- The discriminator is the upper half of the header's range (R62, R67). -/
theorem headerKind_eq (h : Byte) : headerKind h = if h.toNat < 128 then .ack else .data := by
  have hbit : h.getLsbD 7 = decide (128 ≤ h.toNat) := BitVec.msb_eq_decide h
  by_cases hlt : h.toNat < 128
  · rw [headerKind, hbit, if_pos hlt, decide_eq_false (Nat.not_le.mpr hlt)]; rfl
  · rw [headerKind, hbit, if_neg hlt, decide_eq_true (Nat.not_lt.mp hlt)]; rfl

/-- The sequence bit is the upper half of either half of the range (R63, R67). -/
theorem headerSeq_eq (h : Byte) : headerSeq h = SeqBit.ofBit (decide (64 ≤ h.toNat % 128)) := by
  have hbit : h.getLsbD 6 = decide (h.toNat / 64 % 2 = 1) := Nat.testBit_eq_decide_div_mod_eq
  rw [headerSeq, hbit, decide_eq_decide.mpr (by omega : h.toNat / 64 % 2 = 1 ↔ 64 ≤ h.toNat % 128)]

/-- The six low bits are the header modulo 64 (R63, R67). -/
theorem headerLow_toNat (h : Byte) : (headerLow h).toNat = h.toNat % 64 := by
  simp [headerLow]

/-- The six low bits, as the header table writes them. -/
theorem headerLow_eq (h : Byte) : headerLow h = BitVec.ofNat 6 (h.toNat % 64) := by
  apply BitVec.eq_of_toNat_eq
  simp [headerLow_toNat]

/-- The length a header fixes (R66, R67). -/
theorem frameLength_eq (h : Byte) : frameLength h = if h.toNat < 128 then 2 else h.toNat % 64 + 2 := by
  rw [frameLength, headerKind_eq, headerLow_toNat]
  by_cases hlt : h.toNat < 128
  · rw [if_pos hlt, if_pos hlt]
  · rw [if_neg hlt, if_neg hlt]

/-! ## The frame a header selects -/

/-- A header of an ACK and one byte are the bytes of an ACK. -/
theorem ackBytes_of_header {h : Byte} (hk : headerKind h = .ack) (m : Byte) :
    ackBytes (headerSeq h) (headerLow h) m = [h, m] := by
  rw [ackBytes, ← hk, packHeader_fields]

/-- A header of a DATA frame and as many bytes as it fixes are the bytes of a DATA frame. -/
theorem dataBytes_of_header {h : Byte} (hk : headerKind h = .data) {body : List Byte}
    (hlen : body.length = h.toNat % 64 + 1) :
    dataBytes (headerSeq h) (body.take (h.toNat % 64)) (body.getD (h.toNat % 64) 0) = h :: body := by
  have hn : h.toNat % 64 < body.length := by omega
  have hpayload : (body.take (h.toNat % 64)).length = h.toNat % 64 := List.length_take_of_le hn.le
  have hheader : header .data (headerSeq h) (h.toNat % 64) = h := by
    rw [header, ← headerLow_eq, ← hk, packHeader_fields]
  have hbody : body.take (h.toNat % 64) ++ [body.getD (h.toNat % 64) 0] = body := by
    rw [List.getD_eq_getElem _ _ hn, List.take_append_getElem, ← hlen, List.take_length]
  rw [dataBytes, frameBytes, hpayload, hheader, hbody]

/-- Settles O12: bytes as long as their header says are the bytes of the format that the header selects, and those are decoded to
its row. -/
theorem everyHeaderSelectsAFrame : Obligations.EveryHeaderSelectsAFrame := by
  refine ⟨frameLength_eq, fun h body hlen => ?_⟩
  rw [frameLength_eq, List.length_cons] at hlen
  have hkind := headerKind_eq h
  rw [← headerSeq_eq]
  split at hlen
  · next hack =>
    rw [if_pos hack] at hkind ⊢
    obtain ⟨m, rfl⟩ := List.length_eq_one_iff.mp (Nat.succ_injective hlen)
    rw [← ackBytes_of_header hkind, decodeDatagram_ackBytes, ← headerLow_eq]
    rfl
  · next hdata =>
    rw [if_neg hdata] at hkind ⊢
    have hbody : body.length = h.toNat % 64 + 1 := Nat.succ_injective hlen
    have hpayload : (body.take (h.toNat % 64)).length ≤ 63 := by rw [List.length_take]; omega
    rw [← dataBytes_of_header hkind hbody, decodeDatagram_dataBytes _ _ hpayload]

/-! ## A frame handed to the decoder -/

/-- Bytes that fit and that hold a frame are answered with its fields (R93). -/
theorem decodeBuffer_of_parseFrame {bytes : List Byte} {f : Frame} {used : Nat} {s : State}
    (hfits : bytes.length ≤ s.config.bufCap) (h : parseFrame bytes = .ok (f, used)) :
    decodeBuffer bytes bytes.length s = finish (decodeResponse f used) s := by
  rw [decodeBuffer, lengthIllegal, decide_eq_false (Nat.not_lt.mpr hfits), takeBytes_self, h]
  rfl

/-- The bytes of an ACK hold its frame, whatever the unused header bits are (R60). -/
theorem parseFrame_ackBytes (q : SeqBit) (unused : BitVec 6) (m : Byte) :
    parseFrame (ackBytes q unused m) = .ok (.acknowledgment q m, 2) := by
  simp [ackBytes, parseFrame_cons]

/-- The bytes of a DATA frame hold its frame (R61). -/
theorem parseFrame_dataBytes (q : SeqBit) {payload : List Byte} (m : Byte) (h : payload.length ≤ 63) :
    parseFrame (dataBytes q payload m) = .ok (.dataUnit q payload m, payload.length + 2) := by
  rw [dataBytes_eq_content, parseFrame_content q m h (by simp)]
  rfl

/-- Settles O21: a frame's bytes fit a legal build's buffer, and they hold that frame. -/
theorem frameRowsAreDecoded : Obligations.FrameRowsAreDecoded := by
  constructor
  · intro q unused m s hlegal
    have hfits : (ackBytes q unused m).length ≤ s.config.bufCap := Nat.le_trans (by decide : 2 ≤ Config.minBufCap) hlegal
    exact decodeBuffer_of_parseFrame hfits (parseFrame_ackBytes q unused m)
  · intro q payload m s hlegal hlen
    have hbytes : (dataBytes q payload m).length = payload.length + 2 := by simp [dataBytes, frameBytes]
    have hfits : (dataBytes q payload m).length ≤ s.config.bufCap :=
      calc (dataBytes q payload m).length
        _ = payload.length + 2 := hbytes
        _ ≤ Config.minBufCap := Nat.add_le_add_right hlen 2
        _ ≤ s.config.bufCap := hlegal
    exact decodeBuffer_of_parseFrame hfits (parseFrame_dataBytes q m hlen)

/-! ## Reserved codes -/

/-- The instructions of the seven reserved codes (R71). -/
def reservedInstrs : List Instr := [.reserved9, .reservedA, .reservedB, .reservedC, .reservedD, .reservedE, .reservedF]

/-- A code above those of the nine commands is a reserved one, whatever the other fields are (R70, R71). -/
theorem decodeCommand_mem_reservedInstrs {p : CmdPort} (h : 9 ≤ p.op.toNat) : decodeCommand p ∈ reservedInstrs := by
  unfold decodeCommand
  split
  case h_1 ho | h_2 ho | h_3 ho | h_4 ho | h_5 ho | h_6 ho | h_7 ho | h_8 ho | h_9 ho => omega
  all_goals simp [reservedInstrs]

/-- A reserved code raises `ILLEGAL_OP` (R71, R214). -/
theorem exec_of_mem_reservedInstrs {i : Instr} (h : i ∈ reservedInstrs) (s : State) : exec i s = raise .illegalOp s := by
  simp only [reservedInstrs, List.mem_cons, List.not_mem_nil, or_false] at h
  obtain rfl | rfl | rfl | rfl | rfl | rfl | rfl := h
  all_goals rfl

/-- Settles O42: each reserved code raises `ILLEGAL_OP`, and the decoder gives nothing else for a code from 9 up. -/
theorem reservedCodesAnswerIllegalOp : Obligations.ReservedCodesAnswerIllegalOp :=
  ⟨fun _ hi => exec_of_mem_reservedInstrs hi, fun _ s h => exec_of_mem_reservedInstrs (decodeCommand_mem_reservedInstrs h) s⟩

/-! ## Words of the spec -/

/-- Settles O10: a word below 16 is read as a command code, and each datagram is the bytes of the frame it stands for. -/
theorem decodesWordsOfTheSpec : Obligations.DecodesWordsOfTheSpec :=
  ⟨rfl, rfl, rfl, rfl, congrArg some (decodeDatagram_dataBytes .zero (payload := [0x63, 0x69, 0x61, 0x6F]) 0x00 (by decide)),
    congrArg some (decodeDatagram_ackBytes .one 0b000000 0x00), congrArg some (decodeDatagram_ackBytes .one 0b111111 0x12)⟩

end Sys2Proof.Machine

/-! The codec statements: what ENCODE and DECODE answer for every operand, that each gives back what the other was given, the bytes
after a frame, and that no two frames have the same bytes (spec/40_codec.md R90 to R98). -/

namespace Sys2Proof.Machine

/-! ## ENCODE -/

/-- What ENCODE does not refuse: an Acknowledgment, or a DataUnit of at most 63 payload bytes (R90, R91). -/
theorem payloadTooLong_eq_false {kind : Kind} {plen : Byte} :
    payloadTooLong kind plen = false ↔ (kind = .data → plen.toNat ≤ 63) := by
  cases kind with
  | ack => simp [payloadTooLong]
  | data => rw [payloadTooLong, decide_eq_false_iff_not, Nat.not_lt, Config.maxPayload]; simp

/-- ENCODE of a frame that is not too long answers the frame's bytes. -/
theorem exec_encode_of_fits {kind : Kind} {plen : Byte} (h : payloadTooLong kind plen = false) (seq : SeqBit) (buf : List Byte)
    (integ : Byte) (s : State) :
    exec (.encode kind seq plen buf integ) s =
      finish { status := .ok, buf := some (frameBytes (operandFrame kind seq plen buf integ)) } s := by
  rw [exec, execEncode, if_neg (by simp [h])]

/-- ENCODE of a longer one raises the error (R91). -/
theorem exec_encode_of_tooLong {kind : Kind} {plen : Byte} (h : payloadTooLong kind plen = true) (seq : SeqBit) (buf : List Byte)
    (integ : Byte) (s : State) : exec (.encode kind seq plen buf integ) s = raise .lengthConstraint s := by
  rw [exec, execEncode, if_pos h]

/-- Bytes that ENCODE answers are those of a frame it does not refuse. -/
theorem exec_encode_ok {kind : Kind} {seq : SeqBit} {plen : Byte} {buf : List Byte} {integ : Byte} {s : State} {bytes : List Byte}
    (h : exec (.encode kind seq plen buf integ) s = .next
      { s with rsp := some { status := .ok, buf := some bytes }, tx := none }) :
    payloadTooLong kind plen = false ∧ bytes = frameBytes (operandFrame kind seq plen buf integ) := by
  cases hlong : payloadTooLong kind plen with
  | false =>
    rw [exec_encode_of_fits hlong] at h
    cases h
    exact ⟨rfl, rfl⟩
  | true =>
    rw [exec_encode_of_tooLong hlong] at h
    cases h

/-! ## The header ENCODE writes, as a number -/

/-- A header's fields at their weights (R62). -/
theorem packHeader_toNat (kind : Kind) (seq : SeqBit) (low : BitVec 6) :
    (packHeader kind seq low).toNat = 0x80 * kind.bit.toNat + 0x40 * seq.bit.toNat + low.toNat := by
  rw [packHeader, BitVec.toNat_cons', BitVec.toNat_cons', Nat.shiftLeft_eq, Nat.shiftLeft_eq]
  omega

/-- The header of an ACK (R60, R62). -/
theorem header_ack_eq (seq : SeqBit) (n : Nat) : header .ack seq n = BitVec.ofNat 8 (0x40 * seq.bit.toNat) := by
  cases seq <;> rfl

/-- The header of a DATA frame (R61, R62). -/
theorem header_data_eq (seq : SeqBit) {n : Nat} (h : n ≤ 63) :
    header .data seq n = BitVec.ofNat 8 (0x80 + 0x40 * seq.bit.toNat + n) := by
  apply BitVec.eq_of_toNat_eq
  have hseq : seq.bit.toNat ≤ 1 := Bool.toNat_le _
  have hkind : Kind.data.bit.toNat = 1 := rfl
  rw [header, packHeader_toNat, hkind, BitVec.toNat_ofNat, BitVec.toNat_ofNat]
  omega

/-- Settles O14: the frame ENCODE does not refuse is written as a header, the payload and the marker; a longer one is refused. -/
theorem encodeOutcome : Obligations.EncodeOutcome := by
  intro seq plen buf integ s
  refine ⟨?_, fun hfits => ?_, fun hlong => ?_⟩
  · rw [← header_ack_eq seq 0]
    exact exec_encode_of_fits rfl seq buf integ s
  · have hheader := header_data_eq seq hfits
    rw [exec_encode_of_fits (payloadTooLong_eq_false.mpr fun _ => hfits), operandFrame, frameBytes, takeBytes_length, hheader]
    rfl
  · have hrefused : payloadTooLong .data plen = true := decide_eq_true hlong
    exact exec_encode_of_tooLong hrefused seq buf integ s

/-! ## What the frame decoder finds, by index -/

section

variable {bytes : List Byte} {h : Byte}

/-- Two bytes under an ACK header are an Acknowledgment (R93). -/
theorem parseFrame_of_ack (hh : bytes.getD 0 0 = h) (hk : headerKind h = .ack) (hlen : 2 ≤ bytes.length) :
    parseFrame bytes = .ok (.acknowledgment (headerSeq h) (bytes.getD 1 0), 2) := by
  match bytes, hlen with
  | b :: second :: rest, _ =>
    obtain rfl : b = h := hh
    simp [parseFrame_cons, hk]

/-- As many bytes as a DATA header fixes are a DataUnit (R93). -/
theorem parseFrame_of_data {n : Nat} (hh : bytes.getD 0 0 = h) (hk : headerKind h = .data) (hn : (headerLow h).toNat = n)
    (hlen : n + 2 ≤ bytes.length) :
    parseFrame bytes = .ok (.dataUnit (headerSeq h) ((bytes.drop 1).take n) (bytes.getD (n + 1) 0), n + 2) := by
  match bytes, hlen with
  | b :: second :: rest, hlen =>
    obtain rfl : b = h := hh
    rw [parseFrame_cons, hk, hn, if_pos hlen]
    rfl

/-- Fewer bytes than a DATA header fixes are rejected (R94). -/
theorem parseFrame_of_data_truncated (hh : bytes.getD 0 0 = h) (hk : headerKind h = .data)
    (hlen : bytes.length < (headerLow h).toNat + 2) : parseFrame bytes = .error .frameTruncated := by
  match bytes with
  | [] => rfl
  | [_] => rfl
  | b :: second :: rest =>
    obtain rfl : b = h := hh
    rw [parseFrame_cons, hk, if_neg (Nat.not_le.mpr hlen)]

/-- The frame that was found, and where its bytes stand. -/
theorem parseFrame_ok_cases {f : Frame} {used : Nat} (hh : bytes.getD 0 0 = h) (hp : parseFrame bytes = .ok (f, used)) :
    (headerKind h = .ack ∧ 2 ≤ bytes.length ∧ f = .acknowledgment (headerSeq h) (bytes.getD 1 0) ∧ used = 2) ∨
    ∃ n, headerKind h = .data ∧ (headerLow h).toNat = n ∧ n + 2 ≤ bytes.length ∧
      f = .dataUnit (headerSeq h) ((bytes.drop 1).take n) (bytes.getD (n + 1) 0) ∧ used = n + 2 := by
  cases hk : headerKind h with
  | ack =>
    have hlen : 2 ≤ bytes.length := Nat.not_lt.mp fun hshort => by rw [parseFrame_short bytes hshort] at hp; cases hp
    cases (parseFrame_of_ack hh hk hlen).symm.trans hp
    exact .inl ⟨rfl, hlen, rfl, rfl⟩
  | data =>
    have hlen : (headerLow h).toNat + 2 ≤ bytes.length :=
      Nat.not_lt.mp fun hshort => by rw [parseFrame_of_data_truncated hh hk hshort] at hp; cases hp
    cases (parseFrame_of_data hh hk rfl hlen).symm.trans hp
    exact .inr ⟨_, rfl, rfl, hlen, rfl, rfl⟩

/-- Bytes after a frame are ignored (R95). -/
theorem parseFrame_append {f : Frame} {used : Nat} (hp : parseFrame bytes = .ok (f, used)) (trailing : List Byte) :
    parseFrame (bytes ++ trailing) = .ok (f, used) := by
  have hgetD {i : Nat} (hi : i < bytes.length) : (bytes ++ trailing).getD i 0 = bytes.getD i 0 :=
    List.getD_append _ _ _ _ hi
  have hlong : bytes.length ≤ (bytes ++ trailing).length := by simp
  obtain ⟨hk, hlen, rfl, rfl⟩ | ⟨n, hk, hn, hlen, rfl, rfl⟩ := parseFrame_ok_cases rfl hp
  · rw [parseFrame_of_ack (hgetD (by omega)) hk (hlen.trans hlong), hgetD (by omega)]
  · have hpayload : ((bytes ++ trailing).drop 1).take n = (bytes.drop 1).take n := by
      rw [List.drop_append_of_le_length (by omega), List.take_append_of_le_length (by rw [List.length_drop]; omega)]
    rw [parseFrame_of_data (hgetD (by omega)) hk hn (hlen.trans hlong), hgetD (by omega), hpayload]

end

/-! ## DECODE -/

/-- DECODE of a length within the capacity answers the frame its bytes hold (R93). -/
theorem exec_decode_of_parseFrame {buf : List Byte} {blen : Nat} {f : Frame} {used : Nat} {s : State}
    (hcap : blen ≤ s.config.bufCap) (hp : parseFrame (takeBytes blen buf) = .ok (f, used)) :
    exec (.decode buf blen) s = finish (decodeResponse f used) s := by
  obtain ⟨hlong, _⟩ | ⟨_, hp', _⟩ | ⟨_, _, _, hp', e⟩ := decodeBuffer_cases buf blen s
  · omega
  · cases hp.symm.trans hp'
  · cases hp.symm.trans hp'
    exact e

/-- DECODE of a length within the capacity rejects bytes that hold no frame (R94). -/
theorem exec_decode_of_truncated {buf : List Byte} {blen : Nat} {s : State} (hcap : blen ≤ s.config.bufCap)
    (hp : parseFrame (takeBytes blen buf) = .error .frameTruncated) :
    exec (.decode buf blen) s = raise .frameTruncated s := by
  obtain ⟨hlong, _⟩ | ⟨_, _, e⟩ | ⟨_, _, _, hp', _⟩ := decodeBuffer_cases buf blen s
  · omega
  · exact e
  · cases hp.symm.trans hp'

/-- A successful DECODE has found a frame and answers its fields. -/
theorem exec_decode_ok {buf : List Byte} {blen : Nat} {s : State} {r : Response} (hok : r.status = .ok)
    (h : exec (.decode buf blen) s = .next { s with rsp := some r, tx := none }) :
    ∃ f used, parseFrame (takeBytes blen buf) = .ok (f, used) ∧ r = decodeResponse f used := by
  obtain ⟨_, e⟩ | ⟨_, _, e⟩ | ⟨f, used, _, hp, e⟩ := decodeBuffer_cases buf blen s
  · cases e.symm.trans h; cases hok
  · cases e.symm.trans h; cases hok
  · cases e.symm.trans h
    exact ⟨f, used, hp, rfl⟩

/-- Settles O15: the length check, then what the decoder finds under the header, whose fields are read as numbers. -/
theorem decodeOutcome : Obligations.DecodeOutcome := by
  intro buf blen s bytes h n
  have hlen : bytes.length = blen := takeBytes_length blen buf
  have hh : bytes.getD 0 0 = h := rfl
  have hn : (headerLow h).toNat = n := headerLow_toNat h
  have hbyte : h.toNat < 256 := h.isLt
  have hack (hlt : h.toNat < 128) : headerKind h = .ack := by rw [headerKind_eq, if_pos hlt]
  have hdata (hge : 128 ≤ h.toNat) : headerKind h = .data := by rw [headerKind_eq, if_neg (Nat.not_lt.mpr hge)]
  refine ⟨fun hcap => ?_, fun hcap hshort => ?_, fun hcap htwo hlt => ?_, fun hcap hfits hge => ?_,
    fun hcap htwo hge hshort => ?_⟩
  · rw [exec, execDecode, decodeBuffer, lengthIllegal, if_pos (decide_eq_true hcap)]
    rfl
  · exact exec_decode_of_truncated hcap (parseFrame_short bytes (hlen.trans_lt hshort))
  · have hseq : decide (64 ≤ h.toNat) = decide (64 ≤ h.toNat % 128) := decide_eq_decide.mpr (by omega)
    rw [hseq, ← headerSeq_eq]
    exact exec_decode_of_parseFrame hcap (parseFrame_of_ack hh (hack hlt) (htwo.trans_eq hlen.symm))
  · have hseq : decide (192 ≤ h.toNat) = decide (64 ≤ h.toNat % 128) := decide_eq_decide.mpr (by omega)
    have hpayload : ((bytes.drop 1).take n).length = n := List.length_take_of_le (by rw [List.length_drop]; omega)
    rw [hseq, ← headerSeq_eq, exec_decode_of_parseFrame hcap
      (parseFrame_of_data hh (hdata hge) hn (hfits.trans_eq hlen.symm)), decodeResponse, hpayload]
    rfl
  · exact exec_decode_of_truncated hcap (parseFrame_of_data_truncated hh (hdata hge) (by rwa [hlen, hn]))

/-- Settles O18: the decoder finds the same frame in the longer buffer. -/
theorem decodeIgnoresTrailingBytes : Obligations.DecodeIgnoresTrailingBytes := by
  intro bytes trailing s r hok h hcap
  obtain ⟨f, used, hp, rfl⟩ := exec_decode_ok hok h
  rw [takeBytes_self] at hp
  apply exec_decode_of_parseFrame hcap
  rw [takeBytes_self]
  exact parseFrame_append hp trailing

/-! ## DECODE after ENCODE -/

/-- The decoder finds a well-formed frame in its bytes, and nothing after it (R96). -/
theorem parseFrame_frameBytes {f : Frame} (h : f.wellFormed = true) :
    parseFrame (frameBytes f) = .ok (f, (frameBytes f).length) := by
  cases f with
  | acknowledgment q m => exact parseFrame_ackBytes q 0 m
  | dataUnit q payload m =>
    have hlen : (frameBytes (.dataUnit q payload m)).length = payload.length + 2 := by simp [frameBytes]
    rw [hlen]
    exact parseFrame_dataBytes q m (of_decide_eq_true h)

/-- Well-formed frames with the same bytes are the same frame (R98). -/
theorem frameBytes_injective {f g : Frame} (hf : f.wellFormed = true) (hg : g.wellFormed = true)
    (h : frameBytes f = frameBytes g) : f = g := by
  have hparse := parseFrame_frameBytes hf
  rw [h, parseFrame_frameBytes hg] at hparse
  cases hparse
  rfl

/-- Operands that ENCODE does not refuse name a well-formed frame. -/
theorem operandFrame_wellFormed {kind : Kind} {plen : Byte} (h : payloadTooLong kind plen = false) (seq : SeqBit)
    (buf : List Byte) (integ : Byte) : (operandFrame kind seq plen buf integ).wellFormed = true := by
  cases kind with
  | ack => rfl
  | data =>
    rw [operandFrame, Frame.wellFormed, takeBytes_length]
    exact decide_eq_true (payloadTooLong_eq_false.mp h rfl)

/-- Settles O16: the bytes ENCODE writes fit the buffer of a legal build, and the decoder finds the frame in them. -/
theorem decodeAfterEncodeGivesTheFrame : Obligations.DecodeAfterEncodeGivesTheFrame := by
  intro kind seq plen buf integ s u hlegal hplen
  have hfits : payloadTooLong kind plen = false := payloadTooLong_eq_false.mpr hplen
  have hlen := (frameBytes_operandFrame_length seq buf integ hfits).2
  have hparse := parseFrame_frameBytes (operandFrame_wellFormed hfits seq buf integ)
  refine ⟨_, hlen, exec_encode_of_fits hfits seq buf integ s, ?_⟩
  rw [exec, execDecode, decodeBuffer_of_parseFrame (hlen.trans hlegal) hparse]
  cases kind with
  | ack => rfl
  | data =>
    rw [operandFrame, decodeResponse, takeBytes_length]
    rfl

/-- Settles O20: the operands name the same frame, and that has their payload length. -/
theorem encodeIsInjective : Obligations.EncodeIsInjective := by
  intro k₁ k₂ q₁ q₂ n₁ n₂ b₁ b₂ m₁ m₂ s bytes h₁ h₂
  obtain ⟨hfits₁, rfl⟩ := exec_encode_ok h₁
  obtain ⟨hfits₂, hbytes⟩ := exec_encode_ok h₂
  have hframe : operandFrame k₁ q₁ n₁ b₁ m₁ = operandFrame k₂ q₂ n₂ b₂ m₂ :=
    frameBytes_injective (operandFrame_wellFormed hfits₁ q₁ b₁ m₁) (operandFrame_wellFormed hfits₂ q₂ b₂ m₂) hbytes
  cases k₁ <;> cases k₂
  case ack.data => cases hframe
  case data.ack => cases hframe
  case ack.ack =>
    cases hframe
    exact ⟨rfl, rfl, rfl, nofun⟩
  case data.data =>
    obtain ⟨hseq, hpayload, hinteg⟩ := Frame.dataUnit.inj hframe
    have hlen : n₁.toNat = n₂.toNat := by simpa using congrArg List.length hpayload
    exact ⟨rfl, hseq, hinteg, fun _ => ⟨BitVec.eq_of_toNat_eq hlen, hpayload⟩⟩

/-! ## ENCODE after DECODE -/

/-- An Acknowledgment found under a header is written back with the unused bits of the header zero (R68, R97). -/
theorem frameBytes_of_ack_header {h : Byte} (hk : headerKind h = .ack) (m : Byte) :
    frameBytes (.acknowledgment (headerSeq h) m) = [h &&& 0xC0, m] := by
  have hheader : ∀ h : Byte, headerKind h = .ack → header .ack (headerSeq h) 0 = h &&& 0xC0 := by decide
  rw [frameBytes, hheader h hk]

/-- Clearing the six low bits of a byte changes nothing exactly when they are zero. -/
theorem and_0xC0_eq_self_iff (h : Byte) : h &&& 0xC0 = h ↔ h.toNat % 64 = 0 := by
  revert h; decide

/-- A byte and the second byte of `bytes` are all of `bytes` when it has two bytes and begins with that byte. -/
theorem pair_getD_one_eq_iff {b : Byte} {bytes : List Byte} (h : 2 ≤ bytes.length) :
    [b, bytes.getD 1 0] = bytes ↔ bytes.length = 2 ∧ b = bytes.getD 0 0 := by
  match bytes, h with
  | x :: y :: rest, _ => simp [and_comm]

/-- A DataUnit found under a header is written back as its bytes stand (R97). -/
theorem frameBytes_of_data_header {bytes : List Byte} {h : Byte} {n : Nat} (hh : bytes.getD 0 0 = h)
    (hk : headerKind h = .data) (hn : (headerLow h).toNat = n) (hlen : n + 2 ≤ bytes.length) :
    frameBytes (.dataUnit (headerSeq h) ((bytes.drop 1).take n) (bytes.getD (n + 1) 0)) = bytes.take (n + 2) := by
  match bytes, hlen with
  | b :: rest, hlen =>
    cases hh
    rw [headerLow_toNat] at hn
    have hrest : n + 1 ≤ rest.length := Nat.le_of_succ_le_succ hlen
    have hbytes := dataBytes_of_header hk (body := rest.take (n + 1)) (by rw [List.length_take_of_le hrest]; exact hn ▸ rfl)
    rw [hn, List.take_take, Nat.min_eq_left n.le_succ] at hbytes
    simpa [dataBytes] using hbytes

/-- ENCODE of a DataUnit's fields as DECODE drives them writes that DataUnit. -/
theorem exec_encode_of_decoded_data {payload : List Byte} (h : payload.length ≤ 63) (seq : SeqBit) (integ : Byte) (s : State) :
    exec (.encode .data seq ((BitVec.ofNat 6 payload.length).setWidth 8) payload integ) s =
      finish { status := .ok, buf := some (frameBytes (.dataUnit seq payload integ)) } s := by
  have hplen : ((BitVec.ofNat 6 payload.length).setWidth 8).toNat = payload.length := by simp; omega
  rw [exec_encode_of_fits (payloadTooLong_eq_false.mpr fun _ => hplen.trans_le h), operandFrame, hplen, takeBytes_self]

/-- Settles O17: the frame DECODE found is written back, a DataUnit as its bytes stand and an Acknowledgment with the unused header
bits zero. -/
theorem encodeAfterDecodeGivesTheBytes : Obligations.EncodeAfterDecodeGivesTheBytes := by
  intro buf blen s u kind seq plen payload integ used h
  obtain ⟨f, n, hp, hr⟩ := exec_decode_ok rfl h
  have hlength : (takeBytes blen buf).length = blen := takeBytes_length blen buf
  generalize takeBytes blen buf = bytes at hp hlength ⊢
  obtain ⟨hk, hlen, rfl, rfl⟩ | ⟨n, hk, hn, hlen, rfl, rfl⟩ := parseFrame_ok_cases rfl hp
  · cases hr
    have hbytes := frameBytes_of_ack_header hk (bytes.getD 1 0)
    refine ⟨frameBytes (.acknowledgment (headerSeq (bytes.getD 0 0)) (bytes.getD 1 0)), rfl, nofun, fun _ => hbytes, ?_⟩
    rw [hbytes, pair_getD_one_eq_iff hlen, hlength, and_0xC0_eq_self_iff]
    simp
  · have hbytes := frameBytes_of_data_header rfl hk hn hlen
    have hsmall : n < 64 := hn ▸ (headerLow (bytes.getD 0 0)).isLt
    have hpayload : ((bytes.drop 1).take n).length ≤ 63 := (List.length_take_le n _).trans (by omega)
    have hused : (BitVec.ofNat 7 (n + 2)).toNat = n + 2 := by simp; omega
    cases hr
    refine ⟨_, exec_encode_of_decoded_data hpayload _ _ u, fun _ => ?_, nofun, ?_⟩
    · rw [hbytes, hused]
    · rw [hbytes, hused, List.take_eq_self_iff]
      simp
      omega

end Sys2Proof.Machine

/-! The integrity statements: what COMPUTE, VERIFY and TOGGLE answer for every operand, the integrity function of the two modes, and
the changes of a frame that its marker shows (spec/41_integrity_sequence.md R110 to R118). -/

namespace Sys2Proof.Machine

/-! ## COMPUTE and VERIFY -/

section

variable {kind : Kind} {plen : Byte}

/-- COMPUTE on operands that are not too long answers the integrity function of their content. -/
theorem exec_compute_of_fits (h : payloadTooLong kind plen = false) (seq : SeqBit) (buf : List Byte) (s : State) :
    exec (.compute kind seq plen buf) s =
      finish { status := .ok, integ := some (integrityFn s.config (operandContent kind seq plen buf)) } s := by
  rw [exec, execCompute, if_neg (by simp [h])]

/-- COMPUTE on longer ones raises the error. -/
theorem exec_compute_of_tooLong (h : payloadTooLong kind plen = true) (seq : SeqBit) (buf : List Byte) (s : State) :
    exec (.compute kind seq plen buf) s = raise .lengthConstraint s := by
  rw [exec, execCompute, if_pos h]

/-- VERIFY on operands that are not too long answers whether the marker is the integrity function of their content. -/
theorem exec_verify_of_fits (h : payloadTooLong kind plen = false) (seq : SeqBit) (buf : List Byte) (integ : Byte) (s : State) :
    exec (.verify kind seq plen buf integ) s =
      finish { status := .ok, bool := some (integ == integrityFn s.config (operandContent kind seq plen buf)) } s := by
  rw [exec, execVerify, if_neg (by simp [h]), beq_eq_decide]

/-- VERIFY on longer ones raises the error. -/
theorem exec_verify_of_tooLong (h : payloadTooLong kind plen = true) (seq : SeqBit) (buf : List Byte) (integ : Byte) (s : State) :
    exec (.verify kind seq plen buf integ) s = raise .lengthConstraint s := by
  rw [exec, execVerify, if_pos h]

end

/-- The content of an Acknowledgment is its header alone (R110). -/
theorem operandContent_ack (seq : SeqBit) (plen : Byte) (buf : List Byte) :
    operandContent .ack seq plen buf = [BitVec.ofNat 8 (0x40 * seq.bit.toNat)] := by
  rw [operandContent, content, header_ack_eq]

/-- The content of a DataUnit is its header and its payload (R110). -/
theorem operandContent_data (seq : SeqBit) {plen : Byte} (buf : List Byte) (h : plen.toNat ≤ 63) :
    operandContent .data seq plen buf =
      BitVec.ofNat 8 (0x80 + 0x40 * seq.bit.toNat + plen.toNat) :: takeBytes plen.toNat buf := by
  rw [operandContent, content, takeBytes_length, header_data_eq seq h]

/-- Settles O22: COMPUTE answers for the content of what is not too long, and refuses the rest. -/
theorem computeOutcome : Obligations.ComputeOutcome := by
  intro seq plen buf s
  refine ⟨?_, fun hfits => ?_, fun hlong => ?_⟩
  · rw [← operandContent_ack seq plen buf]
    exact exec_compute_of_fits rfl seq buf s
  · rw [← operandContent_data seq buf hfits]
    exact exec_compute_of_fits (payloadTooLong_eq_false.mpr fun _ => hfits) seq buf s
  · have hrefused : payloadTooLong .data plen = true := decide_eq_true hlong
    exact exec_compute_of_tooLong hrefused seq buf s

/-- Settles O23: VERIFY compares with the function of the content of what is not too long, and refuses the rest. -/
theorem verifyOutcome : Obligations.VerifyOutcome := by
  intro seq plen buf integ s
  refine ⟨?_, fun hfits => ?_, fun hlong => ?_⟩
  · rw [← operandContent_ack seq plen buf]
    exact exec_verify_of_fits rfl seq buf integ s
  · rw [← operandContent_data seq buf hfits]
    exact exec_verify_of_fits (payloadTooLong_eq_false.mpr fun _ => hfits) seq buf integ s
  · have hrefused : payloadTooLong .data plen = true := decide_eq_true hlong
    exact exec_verify_of_tooLong hrefused seq buf integ s

/-- Settles O25: both take the integrity function of the same content. -/
theorem verifyAgreesWithCompute : Obligations.VerifyAgreesWithCompute := by
  intro kind seq plen buf s hplen
  have hfits : payloadTooLong kind plen = false := payloadTooLong_eq_false.mpr hplen
  exact ⟨_, exec_compute_of_fits hfits seq buf s, fun m' => exec_verify_of_fits hfits seq buf m' s⟩

/-! ## TOGGLE -/

/-- Settles O26: `toggleBit` of each of the two bits. -/
theorem toggleOutcome : Obligations.ToggleOutcome := fun _ => ⟨rfl, rfl⟩

/-! ## Exclusive or of bytes -/

/-- A first byte is one more term of the exclusive or. -/
theorem xorBytes_cons (b : Byte) (bytes : List Byte) : xorBytes (b :: bytes) = b ^^^ xorBytes bytes := by
  rw [xorBytes, List.foldl_cons, BitVec.xor_comm, List.foldl_assoc, xorBytes]

/-- A last byte is one more term of the exclusive or. -/
theorem xorBytes_concat (bytes : List Byte) (b : Byte) : xorBytes (bytes ++ [b]) = xorBytes bytes ^^^ b := by
  rw [xorBytes, List.foldl_concat, xorBytes]

/-- A bit of the exclusive or is the parity of that bit over the bytes (R113). -/
theorem getLsbD_xorBytes (bytes : List Byte) (k : Nat) :
    (xorBytes bytes).getLsbD k = decide ((bytes.countP fun b => b.getLsbD k) % 2 = 1) := by
  induction bytes with
  | nil => simp [xorBytes]
  | cons b bytes ih =>
    rw [xorBytes_cons, BitVec.getLsbD_xor, ih, List.countP_cons]
    cases b.getLsbD k with
    | false => simp
    | true => simp [Nat.succ_mod_two_eq_one_iff, ← decide_not]

/-- A change of one byte is the same change of the exclusive or. -/
theorem xorBytes_set {bytes : List Byte} {i : Nat} (h : i < bytes.length) (d : Byte) :
    xorBytes (bytes.set i (bytes.getD i 0 ^^^ d)) = xorBytes bytes ^^^ d := by
  induction bytes generalizing i with
  | nil => exact absurd h (Nat.not_lt_zero i)
  | cons b bytes ih =>
    cases i with
    | zero =>
      simp only [List.set_cons_zero, List.getD_cons_zero, xorBytes_cons]
      ac_rfl
    | succ i =>
      simp only [List.set_cons_succ, List.getD_cons_succ, xorBytes_cons]
      rw [ih (Nat.lt_of_succ_lt_succ h), BitVec.xor_assoc]

/-- The last byte is the exclusive or of those before it exactly when that of all of them is zero. -/
theorem xorBytes_eq_zero_iff (bytes : List Byte) : xorBytes bytes = 0#8 ↔ xorBytes bytes.dropLast = bytes.getLastD 0 := by
  obtain rfl | ⟨front, last, rfl⟩ := bytes.eq_nil_or_concat'
  · exact iff_of_true rfl rfl
  · rw [xorBytes_concat, List.dropLast_concat, List.getLastD_concat]
    exact BitVec.xor_eq_zero_iff

/-- Each of the eight bits of a byte is one to invert. -/
theorem one_shiftLeft_ne_zero : ∀ b < 8, 1#8 <<< b ≠ 0#8 := by decide

/-- `IntegrityFn` of mode `STATUS` (R111). -/
theorem integrityFn_status {c : Config} (h : c.integrityMode = .status) (bytes : List Byte) : integrityFn c bytes = 0x00 := by
  simp [integrityFn, h]

/-- `IntegrityFn` of mode `XOR8` (R113). -/
theorem integrityFn_xor8 {c : Config} (h : c.integrityMode = .xor8) (bytes : List Byte) :
    integrityFn c bytes = xorBytes bytes := by
  simp only [integrityFn, h]

/-- Settles O24, the second mode by induction on the content, in `getLsbD_xorBytes`. -/
theorem integrityFunctionOfEachMode : Obligations.IntegrityFunctionOfEachMode := by
  intro c bytes
  refine ⟨fun hstatus => integrityFn_status hstatus bytes, fun hxor k _ => ?_⟩
  rw [integrityFn_xor8 hxor, getLsbD_xorBytes]

/-- Settles O27: content and marker have exclusive or zero, the change makes it the changed bit, and so the changed bytes are not
content and marker. -/
theorem xor8DetectsOneBitChange : Obligations.Xor8DetectsOneBitChange := by
  intro c cont i b hxor hb frame hi changed
  have hframe : xorBytes frame = 0#8 := by rw [xorBytes_concat, integrityFn_xor8 hxor, BitVec.xor_self]
  have hchanged : xorBytes changed = 1#8 <<< b := by rw [xorBytes_set hi, hframe, BitVec.zero_xor, BitVec.twoPow_eq]
  rw [integrityFn_xor8 hxor, Ne, ← xorBytes_eq_zero_iff, hchanged]
  exact one_shiftLeft_ne_zero b hb

/-! ## The corruption of a sealed frame -/

/-- The bytes ENCODE writes are the content and the marker (R60, R61, R110). -/
theorem frameBytes_operandFrame (kind : Kind) (seq : SeqBit) (plen : Byte) (buf : List Byte) (integ : Byte) :
    frameBytes (operandFrame kind seq plen buf integ) = operandContent kind seq plen buf ++ [integ] := by
  cases kind <;> rfl

/-- The corruption of a frame's bytes makes them those of the same frame with another marker (R136). -/
theorem State.outgoing_frameBytes {s : State} (h : s.corruptFires = true) (kind : Kind) (seq : SeqBit) (plen : Byte)
    (buf : List Byte) (integ : Byte) :
    ∃ integ', integ' ≠ integ ∧
      s.outgoing (frameBytes (operandFrame kind seq plen buf integ)) = frameBytes (operandFrame kind seq plen buf integ') := by
  refine ⟨integ ^^^ (1#8 <<< corruptBit (corruptSample s.lfsr)), fun heq => ?_, ?_⟩
  · have hbit : corruptBit (corruptSample s.lfsr) < 8 := BitVec.isLt _
    exact one_shiftLeft_ne_zero _ hbit ((BitVec.xor_right_inj integ).mp (heq.trans BitVec.xor_zero.symm))
  · rw [State.outgoing, if_pos h, frameBytes_operandFrame, flipLastBit_append, frameBytes_operandFrame]

/-- SEND of bytes that fit, where they are not dropped, puts on the link what the corruption leaves of them (R137, R138). -/
theorem exec_send_tx {bytes : List Byte} {s : State} (hfits : bytes.length ≤ s.config.bufCap) (hdrop : s.dropFires = false)
    (dest : Dest) :
    ∃ t, exec (.send bytes bytes.length dest) s = .next t ∧ t.tx = some { bytes := s.outgoing bytes, dest } := by
  rw [exec, execSend, lengthIllegal, decide_eq_false (Nat.not_lt.mpr hfits), takeBytes_self]
  refine ⟨_, rfl, ?_⟩
  rw [State.drive_tx, State.emitted, hdrop]
  rfl

/-- Settles O28: the corrupted bytes are those ENCODE writes for the same fields with another marker, so they decode to these, and
the one marker that verifies is COMPUTE's. -/
theorem corruptedSealedFrameIsDetected : Obligations.CorruptedSealedFrameIsDetected := by
  intro s kind seq plen buf dest hlegal hplen hcorrupt hdrop
  have hfits : payloadTooLong kind plen = false := payloadTooLong_eq_false.mpr hplen
  obtain ⟨m', hne, hout⟩ := State.outgoing_frameBytes hcorrupt kind seq plen buf
    (integrityFn s.config (operandContent kind seq plen buf))
  obtain ⟨t, hsend, htx⟩ := exec_send_tx ((frameBytes_operandFrame_length seq buf _ hfits).2.trans hlegal) hdrop dest
  rw [hout] at htx
  refine ⟨_, m', _, _, exec_compute_of_fits hfits seq buf s, exec_encode_of_fits hfits seq buf _ s, ⟨t, hsend, htx⟩, hne,
    fun u hbuild => ⟨?decoded, ?rejected⟩⟩
  case decoded =>
    obtain ⟨bytes, _, hencode, hdecode⟩ := decodeAfterEncodeGivesTheFrame kind seq plen buf m' s u (hbuild ▸ hlegal) hplen
    obtain ⟨_, rfl⟩ := exec_encode_ok hencode
    simpa only [frameBytes_operandFrame, List.length_append, List.length_singleton] using hdecode
  case rejected =>
    have hanswer := exec_verify_of_fits hfits seq buf m' u
    rw [hbuild, beq_false_of_ne hne] at hanswer
    exact hanswer

end Sys2Proof.Machine

/-! The fault injector statements: the step of the shift register on numbers, the one cycle of its non-zero values, how often the two
events of a SEND fire over it, and what a SEND does (spec/42_udt.md R131 to R146). -/

namespace Sys2Proof.Machine

/-! ## The step is linear -/

/-- Words are equal when bit 31 and all bits below it are: a step treats the two differently. -/
theorem eq_of_msb_and_lower_bits {a b : Word} (hmsb : a.getLsbD 31 = b.getLsbD 31)
    (hlower : ∀ i < 31, a.getLsbD i = b.getLsbD i) : a = b := by
  refine BitVec.eq_of_getLsbD_eq fun i hi => ?_
  obtain rfl | hlt : i = 31 ∨ i < 31 := by omega
  · exact hmsb
  · exact hlower i hlt

theorem lfsrFeedback_xor (a b : Word) : lfsrFeedback (a ^^^ b) = (lfsrFeedback a ^^ lfsrFeedback b) := by
  simp only [lfsrFeedback, BitVec.getLsbD_xor, Bool.xor_assoc, Bool.xor_left_comm]

/-- The step of an exclusive or is the exclusive or of the steps (R132). -/
theorem lfsrStep_xor (a b : Word) : lfsrStep (a ^^^ b) = lfsrStep a ^^^ lfsrStep b := by
  refine eq_of_msb_and_lower_bits ?_ fun i hi => ?_
  · simp only [BitVec.getLsbD_xor, lfsrStep_msb, lfsrFeedback_xor]
  · simp only [BitVec.getLsbD_xor, lfsrStep_getLsbD _ i hi]

theorem lfsrStep_zero : lfsrStep 0#32 = 0#32 := by decide

theorem lfsrStep_eq_zero_iff (s : Word) : lfsrStep s = 0 ↔ s = 0 :=
  ⟨fun h => by_contra fun hs => lfsrStep_ne_zero hs h, by rintro rfl; exact lfsrStep_zero⟩

/-- A linear map with kernel zero is injective. -/
theorem lfsrStep_injective : Function.Injective lfsrStep := by
  intro a b h
  rw [← BitVec.xor_eq_zero_iff] at h ⊢
  rwa [← lfsrStep_xor, ← BitVec.ofNat_eq_ofNat, lfsrStep_eq_zero_iff] at h

/-- The step is the shift with the feedback in the bit it frees (R131). -/
theorem lfsrStep_eq_shift (s : Word) :
    lfsrStep s = (s >>> 1) ||| (BitVec.setWidth 32 (BitVec.ofBool (s[0] ^^ s[10] ^^ s[30] ^^ s[31])) <<< 31) := by
  refine eq_of_msb_and_lower_bits ?_ fun i hi => ?_
  · rw [lfsrStep_msb]
    simp [lfsrFeedback]
  · rw [lfsrStep_getLsbD s i hi]
    simp [hi, Nat.add_comm]

/-- Settles O29: the step bit by bit, in `lfsrStep_eq_shift`, and the worked steps by evaluation. -/
theorem lfsrStepOnNumbers : Obligations.LfsrStepOnNumbers :=
  ⟨lfsrStep_eq_shift, by decide⟩

/-- Settles O30: a linear map with kernel zero, on a finite set. -/
theorem lfsrStepIsBijective : Obligations.LfsrStepIsBijective :=
  ⟨Finite.injective_iff_bijective.mp lfsrStep_injective, lfsrStep_eq_zero_iff⟩

/-! ## Jumping ahead

Every word is a polynomial in the step applied to the one word with bit 31 alone. Polynomials in the step commute with it, so the word
after `j + k` steps from there is the polynomial of the word after `j` steps, applied to the word after `k`. Doubling the number of steps
is thus one product of words, and a word `2^32 - 1` steps ahead is computed in 32 of them. -/

/-- The word from which the jumps start. -/
def lfsrTop : Word := 0x80000000#32

/-- What the step of `w <<< 1` lacks, in bit 31, to be `w`. -/
def lfsrCarry (w : Word) : Bool := (w.getLsbD 9 ^^ w.getLsbD 29) ^^ (w.getLsbD 30 ^^ w.getLsbD 31)

/-- The step undoes a shift to the left but for bit 31. -/
theorem lfsrStep_shiftLeft_xor (w : Word) : lfsrStep (w <<< 1) ^^^ (if lfsrCarry w then lfsrTop else 0#32) = w := by
  refine eq_of_msb_and_lower_bits ?_ fun i hi => ?_
  · have hfb : lfsrFeedback (w <<< 1) = (lfsrCarry w ^^ w.getLsbD 31) := by simp [lfsrFeedback, lfsrCarry]
    rw [BitVec.getLsbD_xor, lfsrStep_msb, hfb]
    cases lfsrCarry w <;> simp [lfsrTop]
  · have htop : ∀ i < 31, lfsrTop.getLsbD i = false := by decide
    have hshift : (w <<< 1).getLsbD (i + 1) = w.getLsbD i := by
      rw [BitVec.getLsbD_shiftLeft, decide_eq_true (by omega : i + 1 < 32)]
      rfl
    rw [BitVec.getLsbD_xor, lfsrStep_getLsbD _ i hi, hshift]
    cases lfsrCarry w <;> simp [htop i hi]

/-- The polynomial in the step that takes `lfsrTop` to `w`, applied to `u`, for a `w` without bits below `32 - n`. -/
def lfsrProduct : Nat → Word → Word → Word
  | 0, _, _ => 0#32
  | n + 1, w, u => lfsrStep (lfsrProduct n (w <<< 1) u) ^^^ (if lfsrCarry w then u else 0#32)

/-- The polynomial of `w` takes `lfsrTop` to `w`. -/
theorem lfsrProduct_lfsrTop {n : Nat} {w : Word} (h : w <<< n = 0#32) : lfsrProduct n w lfsrTop = w := by
  induction n generalizing w with
  | zero => exact h.symm.trans (BitVec.shiftLeft_zero w)
  | succ n ih =>
    have hshifted : w <<< 1 <<< n = 0#32 := by rw [← BitVec.shiftLeft_add, Nat.add_comm, h]
    rw [lfsrProduct, ih hshifted, lfsrStep_shiftLeft_xor]

/-- A polynomial in the step commutes with the step. -/
theorem lfsrProduct_lfsrStep (n : Nat) (w u : Word) : lfsrProduct n w (lfsrStep u) = lfsrStep (lfsrProduct n w u) := by
  induction n generalizing w with
  | zero => exact lfsrStep_zero.symm
  | succ n ih => rw [lfsrProduct, lfsrProduct, lfsrStep_xor, ih, apply_ite lfsrStep, lfsrStep_zero]

theorem lfsrProduct_lfsrSteps (n k : Nat) (w u : Word) :
    lfsrProduct n w (lfsrSteps k u) = lfsrSteps k (lfsrProduct n w u) := by
  induction k generalizing u with
  | zero => rfl
  | succ k ih => rw [lfsrSteps_succ, ih, lfsrProduct_lfsrStep, lfsrSteps_succ]

/-- Numbers of steps add up in the product of the words they lead to. -/
theorem lfsrSteps_add_lfsrTop (j k : Nat) :
    lfsrSteps (j + k) lfsrTop = lfsrProduct 32 (lfsrSteps j lfsrTop) (lfsrSteps k lfsrTop) := by
  have h : lfsrSteps j lfsrTop <<< 32 = 0#32 := BitVec.shiftLeft_eq_zero (by decide)
  rw [lfsrProduct_lfsrSteps, lfsrProduct_lfsrTop h, lfsrSteps_add]

/-- `f w`, where an evaluation computes `w` before it goes on: `lfsrJump` uses each of its intermediate words many times. -/
def withValue (w : Word) (f : Word → Word) : Word :=
  match w.toNat with
  | 0 => f 0#32
  | n + 1 => f (BitVec.ofNat 32 (n + 1))

theorem withValue_eq (w : Word) (f : Word → Word) : withValue w f = f w := by
  have hw : BitVec.ofNat 32 w.toNat = w := by simp
  unfold withValue
  split
  case h_1 h => rw [← hw, h]
  case h_2 n h => rw [← hw, h]

/-- The word `n` steps from `lfsrTop`, by binary doubling, for an `n` of `m` bits. -/
def lfsrJump : Nat → Nat → Word
  | 0, _ => lfsrTop
  | m + 1, n =>
    withValue (lfsrJump m (n / 2)) fun half =>
      if n % 2 = 1 then lfsrStep (lfsrProduct 32 half half) else lfsrProduct 32 half half

/-- Doubling computes the steps. -/
theorem lfsrJump_eq_lfsrSteps {m n : Nat} (h : n < 2 ^ m) : lfsrJump m n = lfsrSteps n lfsrTop := by
  induction m generalizing n with
  | zero =>
    obtain rfl : n = 0 := by omega
    rfl
  | succ m ih =>
    have hhalf : n / 2 < 2 ^ m := by omega
    rw [lfsrJump, withValue_eq, ih hhalf, ← lfsrSteps_add_lfsrTop]
    split
    · rw [← lfsrSteps_succ', show n / 2 + n / 2 + 1 = n by omega]
    · rw [show n / 2 + n / 2 = n by omega]

/-! ## The one cycle of the non-zero values -/

/-- The step as Mathlib iterates it. -/
theorem lfsrSteps_eq_iterate (k : Nat) (v : Word) : lfsrSteps k v = lfsrStep^[k] v := by
  induction k generalizing v with
  | zero => rfl
  | succ k ih => rw [lfsrSteps_succ, ih, Function.iterate_succ_apply]

/-- The advance of one SEND as Mathlib iterates it. -/
theorem lfsrAtSend_eq_iterate (k : Nat) (v : Word) : lfsrAtSend k v = (lfsrStep^[Config.stepsPerSend])^[k] v := by
  rw [lfsrAtSend, lfsrSteps_eq_iterate, Function.iterate_mul]

/-- `n` steps from `lfsrTop` lead back to it exactly when the jump does. -/
theorem isPeriodicPt_lfsrTop_iff {m n : Nat} (h : n < 2 ^ m) :
    Function.IsPeriodicPt lfsrStep n lfsrTop ↔ lfsrJump m n = lfsrTop := by
  rw [lfsrJump_eq_lfsrSteps h, lfsrSteps_eq_iterate]
  exact Iff.rfl

/-- `2^32 - 1` steps lead back to `lfsrTop`. -/
theorem isPeriodicPt_lfsrPeriod : Function.IsPeriodicPt lfsrStep lfsrPeriod lfsrTop :=
  (isPeriodicPt_lfsrTop_iff (m := 32) (by decide)).mpr (by decide +kernel)

/-- The prime factors of `2^32 - 1` (R132). -/
def lfsrPeriodFactors : List Nat := [3, 5, 17, 257, 65537]

theorem mem_lfsrPeriodFactors {p : Nat} (hp : p.Prime) (h : p ∣ lfsrPeriod) : p ∈ lfsrPeriodFactors := by
  have hfactors : lfsrPeriodFactors.Perm lfsrPeriod.primeFactorsList :=
    Nat.primeFactorsList_unique (by decide) (by norm_num [lfsrPeriodFactors])
  exact hfactors.mem_iff.mpr ((Nat.mem_primeFactorsList (by decide)).mpr ⟨hp, h⟩)

/-- `2^32 - 1` steps divided by a prime factor do not lead back to it (R132). -/
theorem not_isPeriodicPt_lfsrPeriod_div {p : Nat} (h : p ∈ lfsrPeriodFactors) :
    ¬ Function.IsPeriodicPt lfsrStep (lfsrPeriod / p) lfsrTop := by
  have hjump : ∀ p ∈ lfsrPeriodFactors, lfsrJump 32 (lfsrPeriod / p) ≠ lfsrTop := by decide +kernel
  have hlt : lfsrPeriod / p < 2 ^ 32 := (Nat.div_le_self _ _).trans_lt (by decide)
  exact fun hper => hjump p h ((isPeriodicPt_lfsrTop_iff hlt).mp hper)

/-- A divisor of `n` that divides no `n / p` is `n`. -/
theorem eq_of_dvd_of_not_dvd_div_prime {d n : Nat} (hn : n ≠ 0) (hd : d ∣ n)
    (h : ∀ p, p.Prime → p ∣ n → ¬ d ∣ n / p) : d = n := by
  obtain ⟨c, rfl⟩ := hd
  by_contra hne
  obtain ⟨p, hp, m, rfl⟩ := Nat.exists_prime_and_dvd (fun hc : c = 1 => hne (by rw [hc, Nat.mul_one]))
  refine h p hp ⟨d * m, by ring⟩ ⟨m, ?_⟩
  rw [show d * (p * m) = p * (d * m) by ring, Nat.mul_div_cancel_left _ hp.pos]

/-- The period of `lfsrTop` is `2^32 - 1`: it divides that, and no quotient of it by a prime. -/
theorem minimalPeriod_lfsrTop : Function.minimalPeriod lfsrStep lfsrTop = lfsrPeriod := by
  refine eq_of_dvd_of_not_dvd_div_prime (by decide) isPeriodicPt_lfsrPeriod.minimalPeriod_dvd fun p hp hdvd hmin => ?_
  exact not_isPeriodicPt_lfsrPeriod_div (mem_lfsrPeriodFactors hp hdvd)
    (Function.isPeriodicPt_iff_minimalPeriod_dvd.mpr hmin)

/-! A map `f` whose iterates meet only non-zero values, with period `2^32 - 1`, meets all of them. -/

section

variable {f : Word → Word} {v : Word} (hmin : Function.minimalPeriod f v = lfsrPeriod)

include hmin

/-- The values within one period differ. -/
theorem injOn_iterate_of_minimalPeriod : Set.InjOn (f^[·] v) (Finset.range lfsrPeriod) := by
  rw [Finset.coe_range, ← hmin]
  exact Function.iterate_injOn_Iio_minimalPeriod

variable (hne : ∀ k, f^[k] v ≠ 0)

include hne

/-- `2^32 - 1` non-zero values that differ are all of them. -/
theorem image_iterate_eq_erase_zero : (Finset.range lfsrPeriod).image (f^[·] v) = Finset.univ.erase 0 := by
  refine Finset.eq_of_subset_of_card_le (fun w hw => ?_) ?_
  · obtain ⟨k, _, rfl⟩ := Finset.mem_image.mp hw
    exact Finset.mem_erase.mpr ⟨hne k, Finset.mem_univ _⟩
  · rw [Finset.card_image_of_injOn (injOn_iterate_of_minimalPeriod hmin), Finset.card_range, Finset.card_erase_of_mem (Finset.mem_univ _),
      Finset.card_univ, ← FinEnum.card_eq_fintypeCard, FinEnum.card_bitVec, lfsrPeriod]

/-- Each non-zero value is met exactly once. -/
theorem existsUnique_iterate_eq {w : Word} (hw : w ≠ 0) : ∃! k, k < lfsrPeriod ∧ f^[k] v = w := by
  have hmem : w ∈ (Finset.range lfsrPeriod).image (f^[·] v) := by
    rw [image_iterate_eq_erase_zero hmin hne]
    exact Finset.mem_erase.mpr ⟨hw, Finset.mem_univ w⟩
  obtain ⟨k, hk, rfl⟩ := Finset.mem_image.mp hmem
  refine ⟨k, ⟨Finset.mem_range.mp hk, rfl⟩, fun j ⟨hj, heq⟩ => ?_⟩
  exact injOn_iterate_of_minimalPeriod hmin (Finset.coe_range _ ▸ hj) hk heq

end

/-- No number of steps leads a non-zero value to zero. -/
theorem iterate_lfsrStep_ne_zero {v : Word} (hv : v ≠ 0) (k : Nat) : lfsrStep^[k] v ≠ 0 :=
  lfsrSteps_eq_iterate k v ▸ lfsrSteps_ne_zero k hv

/-- No number of SENDs does. -/
theorem iterate_stepsPerSend_ne_zero {v : Word} (hv : v ≠ 0) (k : Nat) : (lfsrStep^[Config.stepsPerSend])^[k] v ≠ 0 :=
  Function.iterate_mul lfsrStep _ k ▸ iterate_lfsrStep_ne_zero hv _

/-- Every non-zero value lies on the cycle of `lfsrTop`, and so has its period. -/
theorem minimalPeriod_lfsrStep {v : Word} (hv : v ≠ 0) : Function.minimalPeriod lfsrStep v = lfsrPeriod := by
  obtain ⟨k, ⟨_, rfl⟩, _⟩ := existsUnique_iterate_eq minimalPeriod_lfsrTop (iterate_lfsrStep_ne_zero (by decide)) hv
  have hmem : lfsrTop ∈ Function.periodicPts lfsrStep := ⟨lfsrPeriod, by decide, isPeriodicPt_lfsrPeriod⟩
  rw [Function.minimalPeriod_apply_iterate hmem, minimalPeriod_lfsrTop]

/-- Thirty-two steps have the same period, because 32 and `2^32 - 1` have no common factor. -/
theorem minimalPeriod_stepsPerSend {v : Word} (hv : v ≠ 0) :
    Function.minimalPeriod lfsrStep^[Config.stepsPerSend] v = lfsrPeriod := by
  rw [Function.minimalPeriod_iterate_eq_div_gcd (by decide), minimalPeriod_lfsrStep hv]
  decide

/-- Settles O31: the two have period `2^32 - 1` from every non-zero value. -/
theorem lfsrNonZeroValuesFormOneCycle : Obligations.LfsrNonZeroValuesFormOneCycle := by
  intro v hv
  simp only [lfsrSteps_eq_iterate, lfsrAtSend_eq_iterate]
  have hstep := minimalPeriod_lfsrStep hv
  have hsend := minimalPeriod_stepsPerSend hv
  refine ⟨⟨?_, fun w => existsUnique_iterate_eq hstep (iterate_lfsrStep_ne_zero hv)⟩,
    ⟨?_, fun w => existsUnique_iterate_eq hsend (iterate_stepsPerSend_ne_zero hv)⟩⟩
  · rw [← hstep, Function.iterate_minimalPeriod]
  · rw [← hsend, Function.iterate_minimalPeriod]

/-! ## The two samples -/

/-- The corruption sample is the low half of `LFSR` (R133). -/
theorem corruptSample_toNat (w : Word) : (corruptSample w).toNat = w.toNat % 65536 := by
  simp [corruptSample]

/-- The drop sample is the high half (R133). -/
theorem dropSample_toNat (w : Word) : (dropSample w).toNat = w.toNat / 65536 := by
  have := w.isLt
  rw [dropSample, BitVec.extractLsb'_toNat, Nat.shiftRight_eq_div_pow]
  omega

/-- The low half of a pair of samples is its corruption sample. -/
theorem corruptSample_append (d c : Sample) : corruptSample (d ++ c : Word) = c :=
  BitVec.extractLsb'_append_eq_right

/-- The high half is its drop sample. -/
theorem dropSample_append (d c : Sample) : dropSample (d ++ c : Word) = d :=
  BitVec.extractLsb'_append_eq_left

/-- The two samples are all of the word. -/
theorem dropSample_append_corruptSample (w : Word) : (dropSample w ++ corruptSample w : Word) = w :=
  (BitVec.extractLsb'_append_extractLsb'_eq_extractLsb' rfl).trans BitVec.extractLsb'_eq_self

/-- A word is a pair of samples, and every pair is one (R135). -/
def wordEquivSamples : Word ≃ Sample × Sample where
  toFun w := (corruptSample w, dropSample w)
  invFun r := r.2 ++ r.1
  left_inv := dropSample_append_corruptSample
  right_inv r := Prod.ext (corruptSample_append r.2 r.1) (dropSample_append r.2 r.1)

/-- The corruption event, on numbers (R134). -/
theorem State.corruptFires_iff (s : State) : s.corruptFires = true ↔ s.lfsr.toNat % 65536 < s.corruptT.toNat := by
  rw [State.corruptFires, fires_iff, corruptSample_toNat]

/-- The drop event, on numbers (R134). -/
theorem State.dropFires_iff (s : State) : s.dropFires = true ↔ s.lfsr.toNat / 65536 < s.dropT.toNat := by
  rw [State.dropFires, fires_iff, dropSample_toNat]

/-- A threshold of `0x10000` always fires. -/
theorem fires_thresholdMax (r : Sample) : fires r Config.thresholdMax = true :=
  (fires_iff r _).mpr r.isLt

/-- As many samples are below a threshold as it says (R134). -/
theorem card_fires {t : Threshold} (ht : t ≤ Config.thresholdMax) :
    (Finset.univ.filter fun r : Sample => fires r t = true).card = t.toNat := by
  have hle : t.toNat ≤ 2 ^ 16 := ht
  calc (Finset.univ.filter fun r : Sample => fires r t = true).card
      = (Finset.univ.filter fun i : Fin (2 ^ 16) => i.val < t.toNat).card :=
        Finset.card_equiv BitVec.equivFin.toEquiv fun r => by
          rw [Finset.mem_filter_univ, Finset.mem_filter_univ, fires_iff]
          rfl
    _ = t.toNat := by rw [Fin.card_filter_val_lt, Nat.min_eq_right hle]

/-- Settles O32: the comparisons on numbers, and the count of the samples below a threshold. -/
theorem thresholdFiresOnExactlyThatManySamples : Obligations.ThresholdFiresOnExactlyThatManySamples :=
  ⟨fun s => ⟨s.corruptFires_iff, s.dropFires_iff⟩, fires_iff, fun _ => card_fires,
    fun r => ⟨fires_zero r, fires_thresholdMax r⟩⟩

/-! ## The events over one period -/

/-- Over one period a property holds at as many SENDs as there are non-zero words that have it (R135). -/
theorem card_filter_lfsrAtSend {v : Word} (hv : v ≠ 0) (p : Word → Prop) [DecidablePred p] :
    ((Finset.range lfsrPeriod).filter fun k => p (lfsrAtSend k v)).card =
      (Finset.univ.filter p).card - if p 0 then 1 else 0 := by
  have hmin := minimalPeriod_stepsPerSend hv
  have hinj := injOn_iterate_of_minimalPeriod hmin
  simp only [lfsrAtSend_eq_iterate]
  rw [← Finset.card_image_of_injOn (hinj.mono (Finset.coe_subset.mpr (Finset.filter_subset _ _))), ← Finset.filter_image,
    image_iterate_eq_erase_zero hmin (iterate_stepsPerSend_ne_zero hv), Finset.filter_erase, Finset.card_erase_eq_ite]
  simp only [Finset.mem_filter_univ]
  split
  · rfl
  · exact (Nat.sub_zero _).symm

/-- Any sample below one threshold goes with any below the other in one word (R135). -/
theorem card_both_fire {tc td : Threshold} (hc : tc ≤ Config.thresholdMax) (hd : td ≤ Config.thresholdMax) :
    (Finset.univ.filter fun w : Word => fires (corruptSample w) tc = true ∧ fires (dropSample w) td = true).card =
      tc.toNat * td.toNat := by
  rw [← card_fires hc, ← card_fires hd, ← Finset.card_product]
  exact Finset.card_equiv wordEquivSamples fun w => by
    simp only [Finset.mem_product, Finset.mem_filter_univ, wordEquivSamples, Equiv.coe_fn_mk]

/-- How often both events fire over one period (R135): the zero word, which it leaves out, has both fire unless a threshold is zero. -/
theorem card_both_fire_lfsrAtSend {v : Word} {tc td : Threshold} (hv : v ≠ 0) (hc : tc ≤ Config.thresholdMax)
    (hd : td ≤ Config.thresholdMax) :
    ((Finset.range lfsrPeriod).filter fun k =>
        fires (corruptSample (lfsrAtSend k v)) tc = true ∧ fires (dropSample (lfsrAtSend k v)) td = true).card =
      tc.toNat * td.toNat - (if 0 < tc.toNat ∧ 0 < td.toNat then 1 else 0) := by
  have hzero (t : Threshold) : fires 0 t = true ↔ 0 < t.toNat := fires_iff 0 t
  rw [card_filter_lfsrAtSend hv fun w => fires (corruptSample w) tc = true ∧ fires (dropSample w) td = true,
    card_both_fire hc hd]
  have hc0 : corruptSample 0 = 0 := rfl
  have hd0 : dropSample 0 = 0 := rfl
  simp only [hc0, hd0, hzero]

/-- Settles O33: the count of both events; the other two are this with the threshold `0x10000`, which always fires. -/
theorem eventCountsOverOnePeriod : Obligations.EventCountsOverOnePeriod := by
  intro v tc td hv hc hd
  have hmax : Config.thresholdMax.toNat = 65536 := rfl
  refine ⟨?_, ?_, card_both_fire_lfsrAtSend hv hc hd⟩
  · simpa [fires_thresholdMax, hmax] using card_both_fire_lfsrAtSend hv hc (BitVec.le_refl Config.thresholdMax)
  · simpa [fires_thresholdMax, hmax, Nat.mul_comm] using card_both_fire_lfsrAtSend hv (BitVec.le_refl Config.thresholdMax) hd

/-- Settles O34: the period meets the word of ones, whose samples are below no threshold up to `0xFFFF`. -/
theorem cleanSendInEveryPeriod : Obligations.CleanSendInEveryPeriod := by
  intro s hv hc hd
  obtain ⟨_, _, hall⟩ := lfsrNonZeroValuesFormOneCycle s.lfsr hv
  obtain ⟨k, ⟨hk, hones⟩, _⟩ := hall 0xFFFFFFFF (by decide)
  have hlow : (0xFFFFFFFF : Word).toNat % 65536 = 0xFFFF := by decide
  have hhigh : (0xFFFFFFFF : Word).toNat / 65536 = 0xFFFF := by decide
  refine ⟨k, hk, ?_, ?_⟩
  · rw [← Bool.not_eq_true, State.corruptFires_iff, hones, hlow, not_lt]
    exact hc
  · rw [← Bool.not_eq_true, State.dropFires_iff, hones, hhigh, not_lt]
    exact hd

/-! ## SEND -/

/-- SEND of a length within the capacity advances `LFSR` and answers `OK` (R138, R139). -/
theorem exec_send_of_fits {blen : Nat} {s : State} (h : blen ≤ s.config.bufCap) (buf : List Byte) (dest : Dest) :
    exec (.send buf blen dest) s =
      .next (s.advanceLfsr.drive (some { status := .ok }) (s.emitted (takeBytes blen buf) dest)) := by
  rw [exec, execSend, lengthIllegal, decide_eq_false (Nat.not_lt.mpr h), if_neg Bool.false_ne_true]

/-- SEND of a longer one raises the error (R215). -/
theorem exec_send_of_tooLong {blen : Nat} {s : State} (h : s.config.bufCap < blen) (buf : List Byte) (dest : Dest) :
    exec (.send buf blen dest) s = raise .illegalLen s := by
  rw [exec, execSend, lengthIllegal, decide_eq_true h, if_pos rfl]

/-- The inverted bit by the index of its byte (R136). -/
theorem flipLastBit_eq_set (b : Nat) (bytes : List Byte) :
    flipLastBit b bytes = bytes.set (bytes.length - 1) (bytes.getD (bytes.length - 1) 0 ^^^ BitVec.twoPow 8 b) := by
  obtain rfl | ⟨front, last, rfl⟩ := bytes.eq_nil_or_concat'
  · rfl
  · rw [flipLastBit_append]
    simp [BitVec.twoPow_eq]

/-- The number of the inverted bit, from the register (R136). -/
theorem corruptBit_eq (w : Word) : corruptBit (corruptSample w) = w.toNat % 65536 % 8 := by
  simp [corruptBit, corruptSample_toNat]

/-- The bytes handed to the link, on numbers (R136). -/
theorem State.outgoing_eq (s : State) (bytes : List Byte) :
    s.outgoing bytes =
      if s.lfsr.toNat % 65536 < s.corruptT.toNat ∧ 0 < bytes.length then
        bytes.set (bytes.length - 1)
          (bytes.getD (bytes.length - 1) 0 ^^^ BitVec.twoPow 8 (s.lfsr.toNat % 65536 % 8))
      else bytes := by
  rw [State.outgoing, flipLastBit_eq_set, corruptBit_eq]
  simp only [s.corruptFires_iff]
  cases bytes with
  | nil => simp
  | cons b rest => simp

@[simp] theorem State.outgoing_length (s : State) (bytes : List Byte) : (s.outgoing bytes).length = bytes.length := by
  rw [State.outgoing]
  split
  · exact flipLastBit_length _ _
  · rfl

/-- Settles O35: SEND within the capacity, with what it emits on numbers, and beyond it. -/
theorem sendOutcome : Obligations.SendOutcome := by
  intro buf blen dest s
  refine ⟨fun hfits => ?_, fun hlong => exec_send_of_tooLong hlong buf dest⟩
  rw [exec_send_of_fits hfits, State.emitted, State.outgoing_eq, takeBytes_length]
  simp only [s.dropFires_iff]
  rfl

/-- Settles O36: the response is `OK`, the steps are those of `LFSR`, and only the drop event decides whether there is a transaction. -/
theorem sendTellsNothing : Obligations.SendTellsNothing := by
  intro b₁ b₂ n₁ n₂ d₁ d₂ s₁ s₂ t₁ t₂ h₁ h₂ e₁ e₂
  cases (exec_send_of_fits h₁ b₁ d₁).symm.trans e₁
  cases (exec_send_of_fits h₂ b₂ d₂).symm.trans e₂
  refine ⟨rfl, fun hlfsr => ?_, fun hlfsr hdrop => ?_, fun x hx => ?_⟩
  · exact congrArg (lfsrSteps _) hlfsr
  · have hfires : s₁.dropFires = s₂.dropFires := by rw [State.dropFires, State.dropFires, hlfsr, hdrop]
    rw [State.drive_tx, State.drive_tx, State.emitted, State.emitted, hfires]
    cases s₂.dropFires <;> rfl
  · rw [State.drive_tx, State.emitted] at hx
    split at hx
    · cases hx
    · cases hx
      simp

/-- A seed that is not zero is loaded as it is (R163). -/
theorem seedValue_of_ne_zero {v : Word} (h : v ≠ 0) : seedValue v = v := if_neg h

/-- CFGWR to `LFSR` loads the seed and answers `OK` (R161, R163). -/
theorem exec_cfgwr_seed (v : Word) (s : State) :
    exec (.cfgwr 2 v) s = .next ({ s with lfsr := seedValue v }.drive (some { status := .ok }) none) := rfl

/-- Settles O41: CFGWR loads the value itself, for it is not zero. -/
theorem seedDecidesTheNextSend : Obligations.SeedDecidesTheNextSend := by
  intro s t v hv h
  rw [exec_cfgwr_seed, seedValue_of_ne_zero hv] at h
  cases h
  constructor
  · rw [Bool.eq_iff_iff, decide_eq_true_iff]
    exact State.corruptFires_iff _
  · rw [Bool.eq_iff_iff, decide_eq_true_iff]
    exact State.dropFires_iff _

end Sys2Proof.Machine

/-! The configuration statements: what NOP does, and what CFGWR and CFGRD do for every register index, the clamp of a threshold
and the seed on numbers (spec/43_config.md). -/

namespace Sys2Proof.Machine

/-! ## The values CFGWR stores -/

/-- The clamp of a threshold write, on numbers (R162). -/
theorem clamp17_eq_ofNat_min (w : Word) : clamp17 w = BitVec.ofNat 17 (min w.toNat 65536) := by
  have hmax : Config.thresholdMax = BitVec.ofNat 17 65536 := rfl
  by_cases h : 0x00010000#32 < w
  · have hw : 65536 ≤ w.toNat := Nat.le_of_lt h
    rw [clamp17, if_pos h, min_eq_right hw, hmax]
  · have hw : w.toNat ≤ 65536 := Nat.le_of_not_lt h
    rw [clamp17, if_neg h, min_eq_left hw, BitVec.ofNat_toNat]

/-- The value a seed write loads, on numbers (R163). -/
theorem seedValue_eq_ite_toNat (w : Word) : seedValue w = if w.toNat = 0 then 0xFFFFFFFF else w := by
  by_cases h : w = 0
  · subst h
    rfl
  · have hw : w.toNat ≠ 0 := fun h0 => h (BitVec.eq_of_toNat_eq h0)
    rw [seedValue_of_ne_zero h, if_neg hw]

/-! ## NOP, CFGWR and CFGRD -/

/-- CFGWR to a register that takes the write answers `OK` (R161). -/
theorem exec_cfgwr_of_some {reg : RegIndex} {w : Word} {s u : State} (h : writeRegister reg w s = some u) :
    exec (.cfgwr reg w) s = finish { status := .ok } u := by
  rw [exec, execCfgwr, h]

/-- CFGWR to the reserved index raises the error (R164). -/
theorem exec_cfgwr_of_none {reg : RegIndex} {w : Word} {s : State} (h : writeRegister reg w s = none) :
    exec (.cfgwr reg w) s = raise .illegalReg s := by
  rw [exec, execCfgwr, h]

/-- CFGRD of a register answers with its value (R165). -/
theorem exec_cfgrd_of_some {reg : RegIndex} {w : Word} {s : State} (h : readRegister reg s = some w) :
    exec (.cfgrd reg) s = finish { status := .ok, rdata := some w } s := by
  rw [exec, execCfgrd, h]

/-- CFGRD of the reserved index raises the error (R164). -/
theorem exec_cfgrd_of_none {reg : RegIndex} {s : State} (h : readRegister reg s = none) :
    exec (.cfgrd reg) s = raise .illegalReg s := by
  rw [exec, execCfgrd, h]

/-- Settles O39: each index by what `writeRegister` does with it, the two clamps and the seed on numbers. -/
theorem cfgwrOutcome : Obligations.CfgwrOutcome := by
  intro w s
  rw [← clamp17_eq_ofNat_min, ← seedValue_eq_ite_toNat]
  exact ⟨exec_cfgwr_of_some (u := { s with corruptT := clamp17 w }) rfl,
    exec_cfgwr_of_some (u := { s with dropT := clamp17 w }) rfl, exec_cfgwr_seed w s, exec_cfgwr_of_none rfl⟩

/-- Settles O38: NOP only finishes. -/
theorem nopOutcome : Obligations.NopOutcome := fun _ => rfl

/-- Settles O40: each index by what `readRegister` gives for it; widening a threshold keeps its number. -/
theorem cfgrdOutcome : Obligations.CfgrdOutcome := by
  intro s
  rw [BitVec.ofNat_toNat, BitVec.ofNat_toNat]
  exact ⟨exec_cfgrd_of_some rfl, exec_cfgrd_of_some rfl, exec_cfgrd_of_some rfl, exec_cfgrd_of_none rfl⟩

end Sys2Proof.Machine

/-! The environment statements: what the sender and the receiver do with each call, timeout and datagram, the alternating-bit
invariant of the closed system, and exactly-once delivery, which follows from it (spec/44_environment_arq.md R175 to R191). -/

namespace Sys2Proof.Machine

/-! ## The sender -/

/-- The sealed frame of a payload that fits its length field fits every legal block. -/
theorem sealedBytes_length_le {c b : Config} {q : SeqBit} {p : List Byte} (hb : b.Legal) (hp : p.length ≤ 63) :
    (sealedBytes c .data q p).length ≤ b.bufCap := by
  have : 65 ≤ b.bufCap := hb
  simp only [sealedBytes, content, List.cons_append, List.length_cons, List.length_append, List.length_nil]
  omega

/-- While `Idle`, a payload that fits is sealed, handed to SEND, stored and awaited (R177). -/
theorem Sender.submit_of_fits {x : Sender} {payload : List Byte} (peer : Dest) (hL : x.block.config.Legal) (hp : x.phase = .idle)
    (hlen : payload.length ≤ 63) :
    let frame := sealedBytes x.block.config .data x.number payload
    let sent := x.block.emitted frame peer
    x.submit peer payload =
      { sender :=
          { block := x.block.advanceLfsr.drive (some { status := .ok }) sent
            number := x.number, phase := .awaitingAck frame, timerArmed := true }
        link := sent } := by
  intro frame sent
  simp only [submit, hp, sealFrame_data _ _ hlen]
  rw [sendFrame_eq peer (by exact sealedBytes_length_le hL hlen)]
  rfl

/-- While `Idle`, a payload that SEAL refuses is reported (R177). -/
theorem Sender.submit_of_refused {x : Sender} {payload : List Byte} {b : State} (peer : Dest) (hp : x.phase = .idle)
    (hs : sealFrame .data x.number payload x.block = (b, none)) :
    x.submit peer payload = { sender := { x with block := b }, report := some .lengthConstraint } := by
  simp only [submit, hp, hs]

/-- Settles O50: while `Idle`, what SEAL answers decides; a sealed frame is handed to SEND, a refusal is reported. -/
theorem submitOutcome : Obligations.SubmitOutcome := by
  refine fun x peer payload hL => ⟨fun hp hlen => Sender.submit_of_fits peer hL hp hlen, fun hp hlong hlen => ?refused,
    fun hp hlong => ?unnamed, fun last hp => by rw [Sender.submit, hp]⟩
  case refused =>
    exact Sender.submit_of_refused peer hp (by rw [sealFrame_long _ _ hlong, if_neg (Nat.not_lt.mpr hlen)]; rfl)
  case unnamed =>
    exact Sender.submit_of_refused peer hp (by rw [sealFrame_long _ _ (by omega), if_pos hlong])

/-- Settles O51: an armed timer leads to one SEND of the stored bytes, an unarmed one to nothing. -/
theorem timeoutResendsTheStoredBytes : Obligations.TimeoutResendsTheStoredBytes := by
  refine fun x peer => ⟨fun frame hp harmed hlen => ?armed, fun harmed => ?unarmed⟩
  case armed =>
    simp only [Sender.timeout, hp, harmed, sendFrame_eq peer hlen]
    rfl
  case unarmed =>
    cases hp : x.phase <;> simp [Sender.timeout, hp, harmed]

/-- OPEN in full: the answer, and a block of which only the ports changed. -/
theorem openFrame_eq_drive (d : List Byte) (b : State) : ∃ r, openFrame d b = (b.drive r none, (openFrame d b).2) := by
  obtain ⟨r, hr⟩ := openFrame_keeps d b
  exact ⟨r, by rw [← hr]⟩

/-- What the sender awaits (R178): an acknowledgment of its own number whose marker verifies. -/
def Sender.Accepts (x : Sender) (f : Opened) : Prop := f.kind = .ack ∧ f.seq = x.number ∧ f.valid = true

/-- A matching and verifying acknowledgment is accepted (R178). -/
theorem Sender.receive_of_accepts {x : Sender} {d last : List Byte} {f : Opened} (hp : x.phase = .awaitingAck last)
    (ho : (openFrame d x.block).2 = some f) (hf : x.Accepts f) :
    x.receive d =
      { sender :=
          { block := x.block.drive (some { status := .ok, seq := some (toggleBit x.number) }) none
            number := toggleBit x.number, phase := .idle, timerArmed := false }
        report := some .success } := by
  obtain ⟨r, hr⟩ := openFrame_eq_drive d x.block
  obtain ⟨hk, hq, hv⟩ := hf
  rw [ho] at hr
  simp [receive, hp, hr, hk, hq, hv, toggleByBlock_eq]

/-- Anything else is ignored; only the ports of the block change (R179). -/
theorem Sender.receive_of_not_accepts {x : Sender} {d last : List Byte} (hp : x.phase = .awaitingAck last)
    (hf : ∀ f, (openFrame d x.block).2 = some f → ¬x.Accepts f) :
    ∃ r, x.receive d = { sender := { x with block := x.block.drive r none } } := by
  obtain ⟨r, hr⟩ := openFrame_eq_drive d x.block
  refine ⟨r, ?_⟩
  cases ho : (openFrame d x.block).2 with
  | none => rw [ho] at hr; simp [receive, hp, hr]
  | some f =>
    have hn : ¬(f.kind = .ack ∧ f.seq = x.number ∧ f.valid = true) := hf f ho
    rw [ho] at hr
    simp only [receive, hp, hr, if_neg hn]

/-- While `Idle` bytes are discarded (R179, D27). -/
theorem Sender.receive_of_idle {x : Sender} (hp : x.phase = .idle) (d : List Byte) : x.receive d = { sender := x } := by
  simp [receive, hp]

/-- The sender's bit changes only as it accepts. -/
theorem Sender.accepts_of_number_ne {x : Sender} {d : List Byte} (h : (x.receive d).sender.number ≠ x.number) :
    ∃ last f, x.phase = .awaitingAck last ∧ (openFrame d x.block).2 = some f ∧ x.Accepts f := by
  cases hp : x.phase with
  | idle => rw [receive_of_idle hp] at h; exact absurd rfl h
  | awaitingAck last =>
    by_contra hno
    obtain ⟨r, hr⟩ := receive_of_not_accepts hp fun f ho hf => hno ⟨last, f, rfl, ho, hf⟩
    rw [hr] at h
    exact h rfl

/-- No call of `submit` changes the bit. -/
@[simp] theorem Sender.submit_number (x : Sender) (peer : Dest) (payload : List Byte) :
    (x.submit peer payload).sender.number = x.number := by
  unfold submit
  split
  · rfl
  · split <;> rfl

/-- No timeout changes the bit. -/
@[simp] theorem Sender.timeout_number (x : Sender) (peer : Dest) : (x.timeout peer).sender.number = x.number := by
  unfold timeout
  split <;> rfl

/-- The sender's bit changes only in an arrival at the sender (R181). -/
theorem System.arrival_of_number_ne {y : System} {e : Event} (h : (y.handle e).sender.number ≠ y.sender.number) :
    ∃ src d rest, e = .arrive src y.config.senderAddr ∧ y.flow src y.config.senderAddr = d :: rest ∧
      (y.handle e).sender = (y.sender.receive d).sender ∧
      (y.handle e).reports = y.reports ++ (y.sender.receive d).report.toList := by
  cases e with
  | submit payload => rw [handle_submit] at h; exact absurd (Sender.submit_number ..) h
  | timeout => exact absurd (Sender.timeout_number y.sender y.config.receiverAddr) h
  | atSenderBlock | atReceiverBlock | sentByOther | lose | duplicate => exact absurd rfl h
  | arrive src dest =>
    cases hflow : y.flow src dest with
    | nil => rw [handle_arrive_of_flow_nil hflow] at h; exact absurd rfl h
    | cons d rest =>
      obtain ⟨left, _, _, _, he⟩ := handle_arrive_of_flow_cons hflow
      rw [he] at h ⊢
      by_cases hr : dest = y.config.receiverAddr
      · rw [deliver, if_pos hr] at h; exact absurd rfl h
      · by_cases hs : dest = y.config.senderAddr
        · subst hs
          refine ⟨src, d, rest, rfl, hflow, ?_, ?_⟩ <;> rw [deliver, if_neg hr, if_pos rfl] <;> rfl
        · rw [deliver, if_neg hr, if_neg hs] at h; exact absurd rfl h

/-- Settles O52, by the three things the sender can do with bytes; of the closed system's events only an arrival at the sender
reaches its bit. -/
theorem senderTogglesOnlyOnMatchingAcknowledgment : Obligations.SenderTogglesOnlyOnMatchingAcknowledgment := by
  refine ⟨fun x d last f hp ho hk hq hv => Sender.receive_of_accepts hp ho ⟨hk, hq, hv⟩, fun x d last hp hf => ?ignored,
    fun x d hp => Sender.receive_of_idle hp d, fun y e h => ?event⟩
  case ignored =>
    refine Sender.receive_of_not_accepts hp fun f ho hacc => ?_
    obtain ⟨hk, hq, hv⟩ := hacc
    have := hf f ho
    simp [hk, hq, hv] at this
  case event =>
    obtain ⟨src, d, rest, he, hflow, hsender, hreports⟩ := System.arrival_of_number_ne h
    obtain ⟨last, f, hp, ho, hacc⟩ := Sender.accepts_of_number_ne (hsender ▸ h)
    have hrec := Sender.receive_of_accepts hp ho hacc
    obtain ⟨hk, hq, hv⟩ := hacc
    exact ⟨src, d, rest, last, f, he, hflow, hp, ho, hk, hq, hv, by rw [hsender, hrec], by rw [hsender, hrec],
      by rw [hreports, hrec]; rfl⟩

/-! ## The receiver -/

/-- The answer to a data unit that verifies (R184, R185): delivery and advance for the expected number, and for either number the
acknowledgment handed to SEND. -/
theorem Receiver.receive_of_verifies {x : Receiver} {d : List Byte} {f : Opened} (policy : RxBadPolicy) (peer : Dest)
    (hL : x.block.config.Legal) (ho : (openFrame d x.block).2 = some f) (hk : f.kind = .data) (hv : f.valid = true) :
    let sent := x.block.emitted (sealedBytes x.block.config .ack f.seq []) peer
    x.receive policy peer d =
      if f.seq = x.expected then
        { receiver :=
            { block := x.block.advanceLfsr.drive (some { status := .ok, seq := some (toggleBit x.expected) }) none
              expected := toggleBit x.expected, delivered := x.delivered ++ [f.payload] }
          link := sent }
      else { receiver := { x with block := x.block.advanceLfsr.drive (some { status := .ok }) sent }, link := sent } := by
  intro sent
  obtain ⟨r, hr⟩ := openFrame_eq_drive d x.block
  rw [ho] at hr
  simp only [receive, hr, hk, hv]
  split
  · rw [acknowledge_eq _ _ _ (by simpa using hL)]
    simp only [advance_eq]
    rfl
  · rw [acknowledge_eq _ _ _ (by simpa using hL)]
    rfl

/-- With both thresholds zero a SEND puts out the bytes as they are (R134). -/
theorem State.emitted_of_thresholds_zero {b : State} (hc : b.corruptT = 0) (hd : b.dropT = 0) (bytes : List Byte) (dest : Dest) :
    b.emitted bytes dest = some { bytes, dest } := by
  simp [emitted, outgoing, dropFires, corruptFires, hc, hd]

/-- What OPEN answers on a sealed frame, by a peer of the same build: its fields, and that its marker verifies (R117). -/
theorem openFrame_sealedBytes {k : Kind} (q : SeqBit) {p : List Byte} {b : State} (hb : b.config.Legal) (hp : p.length ≤ 63)
    (hk : k = .ack → p = []) :
    (openFrame (sealedBytes b.config k q p) b).2 = some { kind := k, seq := q, payload := p, valid := true } := by
  simp [sealedBytes, openFrame_eq q _ hb hp hk]

/-- The two bits differ (R116). -/
theorem toggleBit_ne (q : SeqBit) : toggleBit q ≠ q := by cases q <;> decide

/-- Settles O53: the first clause is what a verifying data unit is answered with; after the first delivery the same unit no longer
has the expected number. -/
theorem duplicateIsDeliveredOnce : Obligations.DuplicateIsDeliveredOnce := by
  refine ⟨fun x policy peer d f hL ho hk hv => ?answer, fun x policy peer payload hL hp => ?twice⟩
  case answer =>
    have hrec := Receiver.receive_of_verifies policy peer hL ho hk hv
    exact ⟨fun hq => by rw [hrec, if_pos hq]; rfl, fun hq => by rw [hrec, if_neg hq]; rfl⟩
  case twice =>
    intro d first second ack sentBy
    have hfirst : first = _ := Receiver.receive_of_verifies policy peer hL
      (openFrame_sealedBytes x.expected hL hp (by simp)) rfl rfl
    rw [if_pos rfl] at hfirst
    have hconfig : first.receiver.block.config = x.block.config := by rw [hfirst]; rfl
    have hexpected : first.receiver.expected = toggleBit x.expected := by rw [hfirst]
    have hL' : first.receiver.block.config.Legal := hconfig ▸ hL
    have hsecond : second = _ := Receiver.receive_of_verifies policy peer hL'
      (d := d) (by simpa [d, hconfig] using openFrame_sealedBytes x.expected hL' hp (by simp)) rfl rfl
    rw [if_neg (by rw [hexpected]; exact (toggleBit_ne _).symm), hconfig] at hsecond
    have hlink : first.link = sentBy x.block := by rw [hfirst]; rfl
    have hlink' : second.link = sentBy first.receiver.block := by rw [hsecond]; rfl
    refine ⟨by rw [hfirst], hexpected, by rw [hsecond, hfirst], by rw [hsecond]; exact hexpected, hlink, by rw [hfirst]; rfl,
      hlink', by rw [hsecond]; rfl, fun hc hd => ⟨?_, ?_⟩⟩
    · exact hlink.trans (State.emitted_of_thresholds_zero hc hd ..)
    · exact hlink'.trans (State.emitted_of_thresholds_zero (by rw [hfirst]; exact hc) (by rw [hfirst]; exact hd) ..)

/-- An acknowledgment changes nothing of the receiver but its block. -/
theorem Receiver.acknowledge_keeps (x : Receiver) (peer : Dest) (q : SeqBit) :
    (x.acknowledge peer q).receiver.delivered = x.delivered ∧ (x.acknowledge peer q).receiver.expected = x.expected := by
  simp [acknowledge, sealFrame_ack]

section
variable {x : Receiver} {policy : RxBadPolicy} {d : List Byte} (peer : Dest)

/-- Bytes that are no data unit are dropped in silence (R187). -/
theorem Receiver.receive_of_no_data (h : ∀ f, (openFrame d x.block).2 = some f → f.kind = .ack) :
    ∃ r, x.receive policy peer d = { receiver := { x with block := x.block.drive r none } } := by
  obtain ⟨r, hr⟩ := openFrame_eq_drive d x.block
  refine ⟨r, ?_⟩
  cases ho : (openFrame d x.block).2 with
  | none => rw [ho] at hr; simp [receive, hr]
  | some f => rw [ho] at hr; simp [receive, hr, h f ho]

/-- A data unit that fails, by the policy: silence, or the acknowledgment of `toggle(expected)` (R186). -/
theorem Receiver.receive_of_fails {f : Opened} (ho : (openFrame d x.block).2 = some f) (hk : f.kind = .data)
    (hv : f.valid = false) :
    ∃ r, x.receive policy peer d =
      match policy with
      | .silent => { receiver := { x with block := x.block.drive r none } }
      | .reackPrev => { x with block := x.block.drive r none }.acknowledge peer (toggleBit x.expected) := by
  obtain ⟨r, hr⟩ := openFrame_eq_drive d x.block
  rw [ho] at hr
  cases policy with
  | silent => exact ⟨r, by simp [receive, hr, hk, hv]⟩
  | reackPrev =>
    refine ⟨some { status := .ok, seq := some (toggleBit x.expected) }, ?_⟩
    simp only [receive, hr, hk, hv, toggleByBlock_eq, State.drive_drive]

end

/-- Settles O54: bytes that are no data unit are dropped, and a data unit that fails is answered by the policy. -/
theorem badFrameIsNotDelivered : Obligations.BadFrameIsNotDelivered := by
  intro x policy peer d hbad answer
  by_cases hno : ∀ f, (openFrame d x.block).2 = some f → f.kind = .ack
  · obtain ⟨r, hr⟩ : ∃ r, answer = _ := Receiver.receive_of_no_data peer hno
    rw [hr]
    refine ⟨⟨rfl, rfl⟩, fun _ => ⟨rfl, r, rfl⟩, fun _ _ f ho hk => ?_⟩
    cases (hno f ho).symm.trans hk
  · push Not at hno
    obtain ⟨f, ho, hnack⟩ := hno
    have hk : f.kind = .data := by cases hk : f.kind <;> simp_all
    obtain ⟨r, hr⟩ : ∃ r, answer = _ := Receiver.receive_of_fails peer ho hk (hbad f ho hk)
    rw [hr]
    cases policy with
    | silent => exact ⟨⟨rfl, rfl⟩, fun _ => ⟨rfl, r, rfl⟩, fun h => nomatch h⟩
    | reackPrev =>
      refine ⟨Receiver.acknowledge_keeps .., fun h => ?_, fun _ hL g _ _ => ?_⟩
      · obtain h | h := h
        · cases h
        · exact absurd (h f ho) hnack
      · dsimp only
        rw [Receiver.acknowledge_eq _ _ _ (by simpa using hL)]
        exact ⟨rfl, rfl⟩

/-! ## Frames whose marker may have changed on the way -/

@[simp] theorem toggleBit_toggleBit (q : SeqBit) : toggleBit (toggleBit q) = q := by cases q <;> rfl

/-- There are two bits only (R28). -/
theorem eq_toggleBit_of_ne {q n : SeqBit} (h : q ≠ n) : q = toggleBit n := by
  cases q <;> cases n <;> simp_all [toggleBit]

/-- A frame of this kind, number and payload, whatever its marker: what `AllFrames` says of each datagram. -/
def IsFrame (kind : Kind) (seq : SeqBit) (payload d : List Byte) : Prop := ∃ m, d = content kind seq payload ++ [m]

/-- The content determines the number. -/
theorem seq_eq_of_content_eq {k : Kind} {q q' : SeqBit} {p p' : List Byte} (h : content k q p = content k q' p') : q = q' := by
  cases k with
  | ack => simpa [content, header] using congrArg (fun c => headerSeq (c.headD 0)) h
  | data => simpa [content, header] using congrArg (fun c => headerSeq (c.headD 0)) h

/-- A data unit's content determines its payload. -/
theorem payload_eq_of_content_eq {q q' : SeqBit} {p p' : List Byte} (h : content .data q p = content .data q' p') : p = p' :=
  (List.cons_eq_cons.mp h).2

theorem IsFrame.content_eq {k : Kind} {q q' : SeqBit} {p p' d : List Byte} (h : IsFrame k q p d) (h' : IsFrame k q' p' d) :
    content k q p = content k q' p' := by
  obtain ⟨m, rfl⟩ := h
  obtain ⟨m', h'⟩ := h'
  exact (List.append_inj' h' rfl).1

/-- A frame has one number. -/
theorem IsFrame.seq_eq {k : Kind} {q q' : SeqBit} {p p' d : List Byte} (h : IsFrame k q p d) (h' : IsFrame k q' p' d) : q = q' :=
  seq_eq_of_content_eq (h.content_eq h')

/-- What a SEND of a sealed frame puts on the link is that frame with some marker, to the destination given. -/
theorem State.emitted_sealedBytes {b : State} {c : Config} {k : Kind} {q : SeqBit} {p : List Byte} {dest : Dest} {x : LinkTx}
    (h : b.emitted (sealedBytes c k q p) dest = some x) : x.dest = dest ∧ IsFrame k q p x.bytes := by
  rw [emitted] at h
  split at h
  · cases h
  · cases h
    obtain ⟨m, hm, _⟩ := b.outgoing_content k q p (integrityFn c (content k q p))
    exact ⟨rfl, m, hm⟩

/-! ## What an event makes of a flow -/

/-- The flow `l'` carries, in the order of `l`, what `l` did, perhaps lost or repeated, and behind it datagrams that meet `P`: where
`l` is `o` followed by `n`, so is `l'`, and what is new stands in the second part. -/
def Carries (P : List Byte → Prop) (l l' : List (List Byte)) : Prop :=
  ∀ o n, l = o ++ n → ∃ o' n', l' = o' ++ n' ∧ (∀ d ∈ o', d ∈ o) ∧ ∀ d ∈ n', d ∈ n ∨ P d

section
variable {P Q : List Byte → Prop} {l l' : List (List Byte)}

theorem carries_self (l : List (List Byte)) : Carries P l l := fun o n h => ⟨o, n, h, fun _ h => h, fun _ h => .inl h⟩

/-- The oldest may be taken out. -/
theorem carries_tail (l : List (List Byte)) : Carries P l l.tail := by
  rintro o n rfl
  cases o with
  | nil => exact ⟨[], n.tail, rfl, by simp, fun d h => .inl (List.mem_of_mem_tail h)⟩
  | cons a o => exact ⟨o, n, rfl, fun d h => List.mem_cons_of_mem a h, fun d h => .inl h⟩

/-- The oldest may be repeated. -/
theorem carries_head_append (l : List (List Byte)) : Carries P l (l.head?.toList ++ l) := by
  rintro o n rfl
  cases o with
  | nil => exact ⟨[], n.head?.toList ++ n, rfl, by simp, fun d h => .inl (by cases n <;> simp_all)⟩
  | cons a o => exact ⟨a :: a :: o, n, rfl, by simp, fun d h => .inl h⟩

/-- New datagrams come behind the others. -/
theorem Carries.append (h : Carries P l l') {new : List (List Byte)} (hnew : ∀ d ∈ new, P d) : Carries P l (l' ++ new) := by
  intro o n hl
  obtain ⟨o', n', rfl, ho, hn⟩ := h o n hl
  refine ⟨o', n' ++ new, by simp, ho, fun d hd => ?_⟩
  exact (List.mem_append.mp hd).elim (hn d) fun hd => .inr (hnew d hd)

theorem Carries.mono (h : Carries P l l') (hPQ : ∀ d, P d → Q d) : Carries Q l l' := by
  intro o n hl
  obtain ⟨o', n', hl', ho, hn⟩ := h o n hl
  exact ⟨o', n', hl', ho, fun d hd => (hn d hd).imp_right (hPQ d)⟩

/-- What holds of all that was there and of all that is new holds of all. -/
theorem Carries.forall (h : Carries P l l') (hl : ∀ d ∈ l, Q d) (hP : ∀ d, P d → Q d) : ∀ d ∈ l', Q d := by
  obtain ⟨o, n, rfl, ho, hn⟩ := h [] l rfl
  intro d hd
  obtain hd | hd := List.mem_append.mp hd
  · cases ho d hd
  · exact (hn d hd).elim (hl d) (hP d)

end

/-! ## What an event makes of the system -/

/-- From `y` to `y'`, what comes new into transit to the receiver is the sender's and meets `P`, what comes new to the sender is the
receiver's and meets `Q`; what goes elsewhere is free. -/
structure System.FlowsTo (P Q : List Byte → Prop) (y y' : System) : Prop where
  config : y'.config = y.config
  carries : ∀ src dest, Carries
    (fun d => (dest = y.config.receiverAddr → src = .sender ∧ P d) ∧ (dest = y.config.senderAddr → src = .receiver ∧ Q d))
    (y.flow src dest) (y'.flow src dest)

section
variable {P Q : List Byte → Prop} {y y' : System}

/-- What is new among the data units meets `P`. -/
theorem System.FlowsTo.data (h : y.FlowsTo P Q y') : Carries P y.data y'.data := by
  rw [System.data, System.data, h.config]
  exact (h.carries .sender y.config.receiverAddr).mono fun d hd => (hd.1 rfl).2

/-- What is new among the acknowledgments meets `Q`. -/
theorem System.FlowsTo.acks (h : y.FlowsTo P Q y') : Carries Q y.acks y'.acks := by
  rw [System.acks, System.acks, h.config]
  exact (h.carries .receiver y.config.senderAddr).mono fun d hd => (hd.2 rfl).2

/-- On flows: only the sender has anything in transit to the receiver, and only the receiver to the sender. -/
theorem System.onlyPeersSpeak_iff : y.OnlyPeersSpeak ↔ ∀ src dest, ∀ d ∈ y.flow src dest,
    (dest = y.config.receiverAddr → src = .sender) ∧ (dest = y.config.senderAddr → src = .receiver) := by
  simp only [System.flow, Machine.flow, List.mem_map, List.mem_filter, Datagram.joins_iff]
  constructor
  · rintro h src dest d ⟨x, ⟨hx, rfl, rfl⟩, rfl⟩
    exact h x hx
  · exact fun h x hx => h x.src x.dest x.bytes ⟨x, ⟨hx, rfl, rfl⟩, rfl⟩

/-- Whoever is new in transit to a peer is the other peer. -/
theorem System.FlowsTo.onlyPeersSpeak (h : y.FlowsTo P Q y') (hy : y.OnlyPeersSpeak) : y'.OnlyPeersSpeak := by
  rw [System.onlyPeersSpeak_iff, h.config]
  intro src dest
  exact (h.carries src dest).forall (System.onlyPeersSpeak_iff.mp hy src dest) fun d hd =>
    ⟨fun hr => (hd.1 hr).1, fun hs => (hd.2 hs).1⟩

theorem System.FlowsTo.mono {P' Q' : List Byte → Prop} (h : y.FlowsTo P Q y') (hP : ∀ d, P d → P' d) (hQ : ∀ d, Q d → Q' d) :
    y.FlowsTo P' Q' y' :=
  ⟨h.config, fun src dest => (h.carries src dest).mono fun d hd =>
    ⟨fun hr => (hd.1 hr).imp_right (hP d), fun hs => (hd.2 hs).imp_right (hQ d)⟩⟩

/-- An event that leaves the transit as it is. -/
theorem System.flowsTo_of_transit_eq (hc : y'.config = y.config) (ht : y'.transit = y.transit) : y.FlowsTo P Q y' :=
  ⟨hc, fun src dest => by rw [System.flow, System.flow, ht]; exact carries_self _⟩

/-- A link transaction that is handed over comes behind the others of its own pair. -/
theorem System.FlowsTo.handOver {y'' : System} {src : Endpoint} {tx : Option LinkTx} (h : y.FlowsTo P Q y')
    (hc : y''.config = y'.config) (ht : y''.transit = handOver src tx y'.transit)
    (htx : ∀ x, tx = some x → (x.dest = y.config.receiverAddr → src = .sender ∧ P x.bytes) ∧
      (x.dest = y.config.senderAddr → src = .receiver ∧ Q x.bytes)) : y.FlowsTo P Q y'' := by
  refine ⟨hc.trans h.config, fun src' dest => ?_⟩
  rw [System.flow, System.flow, ht, flow_handOver]
  refine (h.carries src' dest).append fun d hd => ?_
  simp only [List.mem_map, Option.mem_toList, Option.filter_eq_some_iff, decide_eq_true_eq] at hd
  obtain ⟨x, ⟨hx, rfl, rfl⟩, rfl⟩ := hd
  exact htx x hx

end

/-- The part of the system that the protocol reads, beside what is in transit. -/
structure System.View where
  number : SeqBit
  phase : SenderPhase
  timerArmed : Bool
  expected : SeqBit
  delivered : List (List Byte)
  submitted : List (List Byte)
  successes : Nat
  senderBuild : Config
  receiverBuild : Config

/-- What the protocol reads of the system. -/
def System.view (y : System) : System.View where
  number := y.sender.number
  phase := y.sender.phase
  timerArmed := y.sender.timerArmed
  expected := y.receiver.expected
  delivered := y.receiver.delivered
  submitted := y.submitted
  successes := y.reports.count .success
  senderBuild := y.sender.block.config
  receiverBuild := y.receiver.block.config

/-- The bytes are a copy of the stored frame, whatever its marker. -/
def System.Resent (y : System) (d : List Byte) : Prop :=
  ∃ c p, y.sender.phase = .awaitingAck (sealedBytes c .data y.sender.number p) ∧ IsFrame .data y.sender.number p d

/-- What an event can do to the protocol. -/
inductive System.Moves (y y' : System) : Prop where
  /-- Nothing but traffic: the stored frame again, or an acknowledgment of what was delivered last (R180, R185, R186). -/
  | continues (view : y'.view = y.view) (flows : y.FlowsTo y.Resent (IsFrame .ack (toggleBit y.receiver.expected) []) y')
  /-- A payload is accepted by `submit` (R177). -/
  | submits (payload : List Byte) (idle : y.sender.phase = .idle) (fits : payload.length ≤ 63)
    (view : y'.view =
      { y.view with
        phase := .awaitingAck (sealedBytes y.sender.block.config .data y.sender.number payload)
        timerArmed := true, submitted := y.submitted ++ [payload] })
    (flows : y.FlowsTo (IsFrame .data y.sender.number payload) (fun _ => False) y')
  /-- The oldest data unit has the expected number: it is delivered (R184). -/
  | delivers (payload d : List Byte) (rest : List (List Byte)) (oldest : y.data = d :: rest)
    (new : IsFrame .data y.receiver.expected payload d)
    (view : y'.view =
      { y.view with expected := toggleBit y.receiver.expected, delivered := y.receiver.delivered ++ [payload] })
    (flows : y.FlowsTo (fun _ => False) (IsFrame .ack y.receiver.expected []) y')
  /-- The oldest acknowledgment has the number the sender awaits: it is accepted (R178). -/
  | accepts (last d : List Byte) (rest : List (List Byte)) (awaiting : y.sender.phase = .awaitingAck last)
    (oldest : y.acks = d :: rest) (new : IsFrame .ack y.sender.number [] d)
    (view : y'.view =
      { y.view with
        number := toggleBit y.sender.number, phase := .idle, timerArmed := false
        successes := y.reports.count .success + 1 })
    (flows : y.FlowsTo (fun _ => False) (fun _ => False) y')

/-! ## Every move keeps the invariant -/

/-- The part of the invariant that does not depend on the phase. -/
def System.Sound (y : System) : Prop :=
  y.config.Legal ∧ y.sender.block.config.Legal ∧ y.receiver.block.config.Legal ∧ y.OnlyPeersSpeak

/-- The invariant while the sender is `Idle`. -/
theorem System.inv_of_idle {y : System} (hp : y.sender.phase = .idle) : y.Inv ↔ y.Sound ∧ y.AtRest := by
  simp only [Inv, hp, Sound, and_assoc]

/-- The invariant while the sender awaits an acknowledgment. -/
theorem System.inv_of_awaiting {y : System} {frame : List Byte} (hp : y.sender.phase = .awaitingAck frame) :
    y.Inv ↔ y.Sound ∧ y.Outstanding frame := by
  simp only [Inv, hp, Sound, and_assoc]

/-- The invariant contains that part. -/
theorem System.Inv.sound {y : System} (h : y.Inv) : y.Sound := by
  obtain ⟨h1, h2, h3, h4, _⟩ := h
  exact ⟨h1, h2, h3, h4⟩

/-- No move touches the part of the invariant that does not depend on the phase. -/
theorem System.Sound.of_flowsTo {P Q : List Byte → Prop} {y y' : System} (h : y.Sound) (hf : y.FlowsTo P Q y')
    (hs : y'.sender.block.config = y.sender.block.config) (hr : y'.receiver.block.config = y.receiver.block.config) :
    y'.Sound := by
  obtain ⟨hL, hLs, hLr, hspeak⟩ := h
  exact ⟨hf.config ▸ hL, hs ▸ hLs, hr ▸ hLr, hf.onlyPeersSpeak hspeak⟩

section
variable {y y' : System}

/-- What is sent again is a frame of the payload outstanding. -/
theorem System.Resent.isFrame {c : Config} {p d : List Byte} (h : y.Resent d)
    (hp : y.sender.phase = .awaitingAck (sealedBytes c .data y.sender.number p)) : IsFrame .data y.sender.number p d := by
  obtain ⟨c', p', hp', hd⟩ := h
  have hsealed : sealedBytes c .data y.sender.number p = sealedBytes c' .data y.sender.number p' :=
    SenderPhase.awaitingAck.inj (hp.symm.trans hp')
  rw [payload_eq_of_content_eq (List.append_inj' hsealed rfl).1]
  exact hd

/-- Traffic keeps the invariant: what is new is of the number that comes last in its flow. -/
theorem System.Inv.of_continues (h : y.Inv) (view : y'.view = y.view)
    (flows : y.FlowsTo y.Resent (IsFrame .ack (toggleBit y.receiver.expected) []) y') : y'.Inv := by
  simp only [System.view, View.mk.injEq] at view
  obtain ⟨hnumber, hphase, harmed, hexpected, hdelivered, hsubmitted, hsuccesses, hbs, hbr⟩ := view
  have hsound := h.sound.of_flowsTo flows hbs hbr
  cases hp : y.sender.phase with
  | idle =>
    obtain ⟨_, harmed₀, hexpected₀, hdelivered₀, hsuccesses₀, ⟨old, hold, hdata⟩, hacks⟩ := (inv_of_idle hp).mp h
    refine (inv_of_idle (hphase.trans hp)).mpr ⟨hsound, ?_⟩
    rw [AtRest, harmed, hexpected, hnumber, hdelivered, hsubmitted, hsuccesses]
    refine ⟨harmed₀, hexpected₀, hdelivered₀, hsuccesses₀, ⟨old, hold, flows.data.forall hdata fun d hd => ?_⟩, ?_⟩
    · obtain ⟨c, p, hp', _⟩ := hd
      cases hp.symm.trans hp'
    · exact flows.acks.forall hacks fun d hd => hexpected₀ ▸ hd
  | awaitingAck frame =>
    obtain ⟨_, harmed₀, before, payload, hlen, hsubmitted₀, rfl, hsuccesses₀, hphases⟩ := (inv_of_awaiting hp).mp h
    refine (inv_of_awaiting (hphase.trans hp)).mpr ⟨hsound, ?_⟩
    rw [Outstanding, harmed, hsubmitted, hsuccesses, hnumber, hbs]
    refine ⟨harmed₀, before, payload, hlen, hsubmitted₀, rfl, hsuccesses₀, ?_⟩
    obtain ⟨hexpected₀, hdelivered₀, ⟨old, o, n, hold, hdata, ho, hn⟩, hacks⟩ | ⟨hexpected₀, hdelivered₀, hdata, o, n, hacks, ho, hn⟩ :=
      hphases
    · left
      rw [Undelivered, hexpected, hnumber, hdelivered]
      obtain ⟨o', n', hdata', ho', hn'⟩ := flows.data o n hdata
      exact ⟨hexpected₀, hdelivered₀,
        ⟨old, o', n', hold, hdata', fun d hd => ho d (ho' d hd), fun d hd => (hn' d hd).elim (hn d) fun hr => hr.isFrame hp⟩,
        flows.acks.forall hacks fun d hd => hexpected₀ ▸ hd⟩
    · right
      rw [Delivered, hexpected, hnumber, hdelivered]
      obtain ⟨o', n', hacks', ho', hn'⟩ := flows.acks o n hacks
      rw [hexpected₀, toggleBit_toggleBit] at hn'
      exact ⟨hexpected₀, hdelivered₀, flows.data.forall hdata fun d hd => hd.isFrame hp, o', n', hacks',
        fun d hd => ho d (ho' d hd), fun d hd => (hn' d hd).elim (hn d) id⟩

/-- A payload accepted is outstanding and not delivered: all that was in transit at rest is old. -/
theorem System.Inv.of_submits {payload : List Byte} (h : y.Inv) (idle : y.sender.phase = .idle) (fits : payload.length ≤ 63)
    (view : y'.view =
      { y.view with
        phase := .awaitingAck (sealedBytes y.sender.block.config .data y.sender.number payload)
        timerArmed := true, submitted := y.submitted ++ [payload] })
    (flows : y.FlowsTo (IsFrame .data y.sender.number payload) (fun _ => False) y') : y'.Inv := by
  simp only [System.view, View.mk.injEq] at view
  obtain ⟨hnumber, hphase, harmed, hexpected, hdelivered, hsubmitted, hsuccesses, hbs, hbr⟩ := view
  obtain ⟨_, _, hexpected₀, hdelivered₀, hsuccesses₀, ⟨old, hold, hdata⟩, hacks⟩ := (inv_of_idle idle).mp h
  obtain ⟨o', n', hdata', ho', hn'⟩ := flows.data y.data [] (List.append_nil _).symm
  refine (inv_of_awaiting hphase).mpr ⟨h.sound.of_flowsTo flows hbs hbr, harmed, y.submitted, payload, fits, hsubmitted,
    by rw [hnumber, hbs], hsuccesses.trans hsuccesses₀, .inl ?_⟩
  rw [Undelivered, hexpected, hnumber, hdelivered]
  exact ⟨hexpected₀, hdelivered₀,
    ⟨old, o', n', hold, hdata', fun d hd => hdata d (ho' d hd), fun d hd => (hn' d hd).elim (fun hd => nomatch hd) id⟩,
    flows.acks.forall hacks fun d hd => hd.elim⟩

/-- In a flow of old frames before new ones, a new oldest means that there is no old one left. -/
theorem eq_nil_of_oldest_new {k : Kind} {q : SeqBit} {p old d : List Byte} {o n rest : List (List Byte)}
    (hflow : d :: rest = o ++ n) (ho : AllFrames k (toggleBit q) old o) (hd : IsFrame k q p d) : o = [] := by
  cases o with
  | nil => rfl
  | cons a o =>
    obtain ⟨rfl, -⟩ := List.cons_eq_cons.mp hflow
    exact absurd (IsFrame.seq_eq (ho d (by simp)) hd) (toggleBit_ne q)

/-- A delivery is of the payload outstanding: only while that is undelivered does a data unit of the expected number exist, and then
every data unit left is of it. -/
theorem System.Inv.of_delivers {payload d : List Byte} {rest : List (List Byte)} (h : y.Inv) (oldest : y.data = d :: rest)
    (new : IsFrame .data y.receiver.expected payload d)
    (view : y'.view =
      { y.view with expected := toggleBit y.receiver.expected, delivered := y.receiver.delivered ++ [payload] })
    (flows : y.FlowsTo (fun _ => False) (IsFrame .ack y.receiver.expected []) y') : y'.Inv := by
  simp only [System.view, View.mk.injEq] at view
  obtain ⟨hnumber, hphase, harmed, hexpected, hdelivered, hsubmitted, hsuccesses, hbs, hbr⟩ := view
  have hsound := h.sound.of_flowsTo flows hbs hbr
  have hmem : d ∈ y.data := by simp [oldest]
  cases hp : y.sender.phase with
  | idle =>
    obtain ⟨_, _, hexpected₀, _, _, ⟨old, _, hdata⟩, _⟩ := (inv_of_idle hp).mp h
    exact absurd (IsFrame.seq_eq (hdata d hmem) new) (hexpected₀ ▸ toggleBit_ne _)
  | awaitingAck frame =>
    obtain ⟨_, harmed₀, before, outstanding, hlen, hsubmitted₀, rfl, hsuccesses₀, hphases⟩ := (inv_of_awaiting hp).mp h
    obtain ⟨hexpected₀, hdelivered₀, ⟨old, o, n, hold, hdata, ho, hn⟩, hacks⟩ | ⟨hexpected₀, _, hdata, _⟩ := hphases
    · rw [hexpected₀] at new hexpected flows
      obtain rfl := eq_nil_of_oldest_new (oldest.symm.trans hdata) ho new
      have hdata₀ : AllFrames .data y.sender.number outstanding y.data := by rw [hdata]; exact hn
      obtain rfl : outstanding = payload := payload_eq_of_content_eq (IsFrame.content_eq (hdata₀ d hmem) new)
      obtain ⟨o', n', hacks', ho', hn'⟩ := flows.acks y.acks [] (List.append_nil _).symm
      refine (inv_of_awaiting (hphase.trans hp)).mpr ⟨hsound, ?_⟩
      rw [Outstanding, harmed, hsubmitted, hsuccesses, hnumber, hbs]
      refine ⟨harmed₀, before, outstanding, hlen, hsubmitted₀, rfl, hsuccesses₀, .inr ?_⟩
      rw [Delivered, hexpected, hnumber, hdelivered, hdelivered₀]
      exact ⟨rfl, rfl, flows.data.forall hdata₀ fun d hd => hd.elim, o', n', hacks', fun d hd => hacks d (ho' d hd),
        fun d hd => (hn' d hd).elim (fun hd => nomatch hd) id⟩
    · exact absurd (IsFrame.seq_eq new (hdata d hmem)) (hexpected₀ ▸ toggleBit_ne _)

/-- An acknowledgment accepted is of the payload outstanding: only where that is delivered does one of the awaited number exist, and
then every frame left is old. -/
theorem System.Inv.of_accepts {last d : List Byte} {rest : List (List Byte)} (h : y.Inv)
    (awaiting : y.sender.phase = .awaitingAck last) (oldest : y.acks = d :: rest) (new : IsFrame .ack y.sender.number [] d)
    (view : y'.view =
      { y.view with
        number := toggleBit y.sender.number, phase := .idle, timerArmed := false
        successes := y.reports.count .success + 1 })
    (flows : y.FlowsTo (fun _ => False) (fun _ => False) y') : y'.Inv := by
  simp only [System.view, View.mk.injEq] at view
  obtain ⟨hnumber, hphase, harmed, hexpected, hdelivered, hsubmitted, hsuccesses, hbs, hbr⟩ := view
  obtain ⟨_, _, before, payload, hlen, hsubmitted₀, rfl, hsuccesses₀, hphases⟩ := (inv_of_awaiting awaiting).mp h
  obtain ⟨_, _, _, hacks⟩ | ⟨hexpected₀, hdelivered₀, hdata, o, n, hacks, ho, hn⟩ := hphases
  · exact absurd (IsFrame.seq_eq (hacks d (by simp [oldest])) new) (toggleBit_ne _)
  · obtain rfl := eq_nil_of_oldest_new (oldest.symm.trans hacks) ho new
    have hacks₀ : AllFrames .ack y.sender.number [] y.acks := by rw [hacks]; exact hn
    refine (inv_of_idle hphase).mpr ⟨h.sound.of_flowsTo flows hbs hbr, ?_⟩
    rw [AtRest, harmed, hexpected, hnumber, hdelivered, hsubmitted, hsuccesses, toggleBit_toggleBit]
    exact ⟨rfl, hexpected₀, hdelivered₀.trans hsubmitted₀.symm, by simp [hsuccesses₀, hsubmitted₀],
      ⟨payload, hlen, flows.data.forall hdata fun d hd => hd.elim⟩, flows.acks.forall hacks₀ fun d hd => hd.elim⟩

/-- Every move keeps the invariant. -/
theorem System.Inv.of_moves (h : y.Inv) (hm : y.Moves y') : y'.Inv := by
  cases hm with
  | continues view flows => exact h.of_continues view flows
  | submits payload idle fits view flows => exact h.of_submits idle fits view flows
  | delivers payload d rest oldest new view flows => exact h.of_delivers oldest new view flows
  | accepts last d rest awaiting oldest new view flows => exact h.of_accepts awaiting oldest new view flows

end

/-! ## Every event is a move -/

section
variable {y : System} {P Q : List Byte → Prop}

/-- Nothing happened to the transit. -/
theorem System.flowsTo_self (y : System) : y.FlowsTo P Q y := flowsTo_of_transit_eq rfl rfl

/-- An event that leaves the transit as it is and of the protocol nothing changed. -/
theorem System.moves_of_view_eq {y' : System} (hc : y'.config = y.config) (hv : y'.view = y.view) (ht : y'.transit = y.transit) :
    y.Moves y' := .continues hv (flowsTo_of_transit_eq hc ht)

/-- A loss is traffic. -/
theorem System.moves_lose (y : System) (src : Endpoint) (dest : Dest) : y.Moves (y.handle (.lose src dest)) := by
  refine .continues rfl ⟨rfl, fun src' dest' => ?_⟩
  show Carries _ (Machine.flow src' dest' y.transit) (Machine.flow src' dest' (y.config.transport.lose src dest y.transit))
  obtain h | ⟨_, _, h⟩ := flow_lose (src := src) (src' := src') (dest := dest) (dest' := dest') (l := y.transit) y.config.transport
  · rw [h]; exact carries_self _
  · rw [h]; exact carries_tail _

/-- So is a repetition. -/
theorem System.moves_duplicate (y : System) (src : Endpoint) (dest : Dest) : y.Moves (y.handle (.duplicate src dest)) := by
  refine .continues rfl ⟨rfl, fun src' dest' => ?_⟩
  show Carries _ (Machine.flow src' dest' y.transit) (Machine.flow src' dest' (y.config.transport.duplicate src dest y.transit))
  cases y.config.transport with
  | reliable => exact carries_self _
  | lossy =>
    rw [Transport.duplicate, flow_duplicateOldest]
    split
    · exact carries_head_append _
    · exact carries_self _

/-- A datagram to neither peer is free to come into transit. -/
theorem System.flowsTo_of_foreign {y' : System} {src : Endpoint} {tx : Option LinkTx} (hc : y'.config = y.config)
    (ht : y'.transit = handOver src tx y.transit)
    (htx : ∀ x, tx = some x → x.dest ≠ y.config.senderAddr ∧ x.dest ≠ y.config.receiverAddr) : y.FlowsTo P Q y' :=
  y.flowsTo_self.handOver hc ht fun x hx => ⟨fun h => absurd h (htx x hx).2, fun h => absurd h (htx x hx).1⟩

/-- What another host's input puts on a peer's link port goes where the event says. -/
theorem State.foreignDest_of_feed_tx {b : State} {inp : HostInput} {x : LinkTx} (h : (b.feed inp).tx = some x) :
    (Event.atSenderBlock inp).foreignDest = some x.dest ∧ (Event.atReceiverBlock inp).foreignDest = some x.dest := by
  obtain ⟨p, rfl, hop, hdest⟩ := State.feed_tx h
  simp [Event.foreignDest, hop, hdest]

/-- What others do to the sender's block is traffic elsewhere: the build stays, and a SEND goes to neither peer. -/
theorem System.moves_atSenderBlock {inp : HostInput} (he : (Event.atSenderBlock inp).LeavesStreamAlone y.config) :
    y.Moves (y.handle (.atSenderBlock inp)) :=
  .continues (by simp only [handle, feedSenderBlock, view, emit, State.feed_keeps])
    (flowsTo_of_foreign rfl rfl fun _ hx => he _ (State.foreignDest_of_feed_tx hx).1)

/-- The same at the receiver's block. -/
theorem System.moves_atReceiverBlock {inp : HostInput} (he : (Event.atReceiverBlock inp).LeavesStreamAlone y.config) :
    y.Moves (y.handle (.atReceiverBlock inp)) :=
  .continues (by simp only [handle, feedReceiverBlock, view, emit, State.feed_keeps])
    (flowsTo_of_foreign rfl rfl fun _ hx => he _ (State.foreignDest_of_feed_tx hx).2)

/-- A datagram of another endpoint goes to neither peer. -/
theorem System.moves_sentByOther {addr : Dest} {tx : LinkTx} (he : (Event.sentByOther addr tx).LeavesStreamAlone y.config) :
    y.Moves (y.handle (.sentByOther addr tx)) :=
  .continues rfl (flowsTo_of_foreign rfl rfl fun _ hx => he _ (by cases hx; rfl))

/-- A SEND of a sealed data unit to the receiver adds at most a copy of it. -/
theorem System.flowsTo_of_data_sent {y' : System} {b : State} {c : Config} {p : List Byte} (hL : y.config.Legal)
    (hc : y'.config = y.config)
    (ht : y'.transit =
      handOver .sender (b.emitted (sealedBytes c .data y.sender.number p) y.config.receiverAddr) y.transit) :
    y.FlowsTo (IsFrame .data y.sender.number p) Q y' := by
  refine y.flowsTo_self.handOver hc ht fun x hx => ?_
  obtain ⟨hdest, hframe⟩ := State.emitted_sealedBytes hx
  exact ⟨fun _ => ⟨rfl, hframe⟩, fun h => absurd (h.symm.trans hdest) hL⟩

/-- `submit` opens the next exchange, or only reports. -/
theorem System.moves_submit (h : y.Inv) (payload : List Byte) : y.Moves (y.handle (.submit payload)) := by
  obtain ⟨hL, hLs, _, _⟩ := h.sound
  obtain ⟨hfits, hrefused, hunnamed, hawaiting⟩ := submitOutcome y.sender y.config.receiverAddr payload hLs
  rw [handle_submit]
  cases hp : y.sender.phase with
  | awaitingAck last => rw [hawaiting last hp]; exact moves_of_view_eq rfl (by simp [view]) (by simp)
  | idle =>
    by_cases hlen : payload.length ≤ 63
    · rw [hfits hp hlen]
      exact .submits payload hp hlen (by simp [view]) (flowsTo_of_data_sent hL rfl rfl)
    · by_cases hlong : payload.length ≤ 255
      · rw [hrefused hp (by omega) hlong]; exact moves_of_view_eq rfl (by simp [view]) (by simp)
      · rw [hunnamed hp (by omega)]; exact moves_of_view_eq rfl (by simp [view]) (by simp)

/-- A timeout sends the stored frame again; while `Idle` no timer is armed. -/
theorem System.moves_timeout (h : y.Inv) : y.Moves (y.handle .timeout) := by
  obtain ⟨hL, hLs, _, _⟩ := h.sound
  obtain ⟨harmed, hunarmed⟩ := timeoutResendsTheStoredBytes y.sender y.config.receiverAddr
  cases hp : y.sender.phase with
  | idle =>
    obtain ⟨_, htimer, _⟩ := (inv_of_idle hp).mp h
    rw [handle, hunarmed htimer]
    exact moves_of_view_eq rfl (by simp [view, afterSender]) (by simp [afterSender])
  | awaitingAck frame =>
    obtain ⟨_, htimer, before, payload, hlen, _, rfl, _⟩ := (inv_of_awaiting hp).mp h
    rw [handle, harmed _ hp htimer (sealedBytes_length_le hLs hlen)]
    exact .continues (by simp [view, afterSender])
      (.mono (flowsTo_of_data_sent (p := payload) (Q := fun _ => False) hL rfl rfl)
        (fun d hd => ⟨_, payload, hp, hd⟩) fun d hd => hd.elim)

/-! ### Arrivals -/

/-- What is in transit to the receiver are data units, whatever their markers. -/
theorem System.Inv.data_isFrame (h : y.Inv) {d : List Byte} (hd : d ∈ y.data) :
    ∃ q p, p.length ≤ 63 ∧ IsFrame .data q p d := by
  cases hp : y.sender.phase with
  | idle =>
    obtain ⟨_, _, _, _, _, ⟨old, hold, hdata⟩, _⟩ := (inv_of_idle hp).mp h
    exact ⟨_, old, hold, hdata d hd⟩
  | awaitingAck frame =>
    obtain ⟨_, _, before, payload, hlen, _, _, _, hphases⟩ := (inv_of_awaiting hp).mp h
    obtain ⟨_, _, ⟨old, o, n, hold, hdata, ho, hn⟩, _⟩ | ⟨_, _, hdata, _⟩ := hphases
    · rw [hdata, List.mem_append] at hd
      exact hd.elim (fun hd => ⟨_, old, hold, ho d hd⟩) fun hd => ⟨_, payload, hlen, hn d hd⟩
    · exact ⟨_, payload, hlen, hdata d hd⟩

/-- What is in transit to the sender are acknowledgments, whatever their markers. -/
theorem System.Inv.acks_isFrame (h : y.Inv) {d : List Byte} (hd : d ∈ y.acks) : ∃ q, IsFrame .ack q [] d := by
  cases hp : y.sender.phase with
  | idle =>
    obtain ⟨_, _, _, _, _, _, hacks⟩ := (inv_of_idle hp).mp h
    exact ⟨_, hacks d hd⟩
  | awaitingAck frame =>
    obtain ⟨_, _, before, payload, _, _, _, _, hphases⟩ := (inv_of_awaiting hp).mp h
    obtain ⟨_, _, _, hacks⟩ | ⟨_, _, _, o, n, hacks, ho, hn⟩ := hphases
    · exact ⟨_, hacks d hd⟩
    · rw [hacks, List.mem_append] at hd
      exact hd.elim (fun hd => ⟨_, ho d hd⟩) fun hd => ⟨_, hn d hd⟩

/-- An arrival takes the oldest of its own flow; whatever else it does, no other flow loses anything. -/
theorem System.flowsTo_of_arrival {src : Endpoint} {dest : Dest} {d : List Byte} {rest : List (List Byte)} {left : List Datagram}
    (hflow : y.flow src dest = d :: rest) (hrest : Machine.flow src dest left = rest)
    (hother : ∀ src' dest', ¬(src' = src ∧ dest' = dest) → Machine.flow src' dest' left = y.flow src' dest') :
    y.FlowsTo P Q { y with transit := left } := by
  refine ⟨rfl, fun src' dest' => ?_⟩
  show Carries _ (y.flow src' dest') (Machine.flow src' dest' left)
  by_cases hs : src' = src ∧ dest' = dest
  · obtain ⟨rfl, rfl⟩ := hs
    rw [hrest, hflow]
    exact carries_tail _
  · rw [hother _ _ hs]
    exact carries_self _

/-- A SEND of a sealed acknowledgment to the sender adds at most a copy of it. -/
theorem System.FlowsTo.ack_sent {y₁ y' : System} {b : State} {c : Config} {q : SeqBit} (hflows : y.FlowsTo P (IsFrame .ack q []) y₁)
    (hL : y.config.Legal) (hc : y'.config = y₁.config)
    (ht : y'.transit = Machine.handOver .receiver (b.emitted (sealedBytes c .ack q []) y.config.senderAddr) y₁.transit) :
    y.FlowsTo P (IsFrame .ack q []) y' := by
  refine hflows.handOver hc ht fun x hx => ?_
  obtain ⟨hdest, hframe⟩ := State.emitted_sealedBytes hx
  exact ⟨fun h => absurd (hdest.symm.trans h) hL, fun _ => ⟨rfl, hframe⟩⟩

/-- A data unit that reaches the receiver is delivered, or only answered. -/
theorem System.moves_deliver_to_receiver (h : y.Inv) {d : List Byte} {rest : List (List Byte)} {left : List Datagram}
    (hdata : y.data = d :: rest) (hflows : ∀ P Q, y.FlowsTo P Q { y with transit := left }) :
    y.Moves ({ y with transit := left }.afterReceiver (y.receiver.receive y.config.rxBadPolicy y.config.senderAddr d)) := by
  obtain ⟨hL, _, hLr, _⟩ := h.sound
  obtain ⟨q, p, hp, m, rfl⟩ := h.data_isFrame (d := d) (by simp [hdata])
  obtain ⟨b, r, t, hb, answer⟩ := y.receiver.receive_data y.config.rxBadPolicy y.config.senderAddr q m hLr hp
  obtain ⟨-, answer⟩ | ⟨-, answer⟩ | ⟨-, hq, answer⟩ | ⟨-, rfl, answer⟩ := answer <;> rw [answer]
  · exact .continues (by simp [view, afterReceiver, hb]) ((hflows _ _).handOver rfl rfl fun x hx => nomatch hx)
  · exact .continues (by simp [view, afterReceiver, hb]) ((hflows _ _).ack_sent hL rfl rfl)
  · obtain rfl := eq_toggleBit_of_ne hq
    exact .continues (by simp [view, afterReceiver, hb]) ((hflows _ _).ack_sent hL rfl rfl)
  · exact .delivers p _ rest hdata ⟨m, rfl⟩ (by simp [view, afterReceiver, hb]) ((hflows _ _).ack_sent hL rfl rfl)

/-- An acknowledgment that reaches the sender is accepted, or nothing happens. -/
theorem System.moves_deliver_to_sender (h : y.Inv) {d : List Byte} {rest : List (List Byte)} {left : List Datagram}
    (hacks : y.acks = d :: rest) (hflows : ∀ P Q, y.FlowsTo P Q { y with transit := left }) :
    y.Moves ({ y with transit := left }.afterSender (y.sender.receive d)) := by
  obtain ⟨_, hLs, _, _⟩ := h.sound
  cases hp : y.sender.phase with
  | idle =>
    rw [Sender.receive_of_idle hp]
    exact .continues (by simp [view, afterSender]) ((hflows _ _).handOver rfl rfl fun x hx => nomatch hx)
  | awaitingAck last =>
    obtain ⟨q, m, rfl⟩ := h.acks_isFrame (d := d) (by simp [hacks])
    obtain ⟨b, r, rfl, answer⟩ := y.sender.receive_ack q m hLs hp
    rw [answer]
    split
    · next hq =>
      obtain ⟨rfl, -⟩ := hq
      exact .accepts last _ rest hp hacks ⟨m, rfl⟩ (by simp [view, afterSender])
        ((hflows _ _).handOver rfl rfl fun x hx => nomatch hx)
    · exact .continues (by simp [view, afterSender]) ((hflows _ _).handOver rfl rfl fun x hx => nomatch hx)

/-- An arrival is a move: only the peers speak to the peers. -/
theorem System.moves_arrive (h : y.Inv) (src : Endpoint) (dest : Dest) : y.Moves (y.handle (.arrive src dest)) := by
  obtain ⟨_, _, _, hspeak⟩ := h.sound
  cases hflow : y.flow src dest with
  | nil => rw [handle_arrive_of_flow_nil hflow]; exact moves_of_view_eq rfl rfl rfl
  | cons d rest =>
    obtain ⟨left, _, hrest, hother, he⟩ := handle_arrive_of_flow_cons hflow
    have hflows (P Q) : y.FlowsTo P Q { y with transit := left } := flowsTo_of_arrival hflow hrest hother
    obtain ⟨hsrcr, hsrcs⟩ := onlyPeersSpeak_iff.mp hspeak src dest d (by simp [hflow])
    rw [he, deliver]
    split
    · next hr =>
      obtain rfl := hsrcr hr
      exact moves_deliver_to_receiver h (by rw [data, ← hr, hflow]) hflows
    · split
      · next hs =>
        obtain rfl := hsrcs hs
        exact moves_deliver_to_sender h (by rw [acks, ← hs, hflow]) hflows
      · exact .continues rfl ⟨rfl, (hflows _ _).carries⟩

/-- What any event can do that leaves the stream between the peers alone. -/
theorem System.handle_moves (h : y.Inv) {e : Event} (he : e.LeavesStreamAlone y.config) : y.Moves (y.handle e) := by
  cases e with
  | submit payload => exact moves_submit h payload
  | timeout => exact moves_timeout h
  | arrive src dest => exact moves_arrive h src dest
  | atSenderBlock inp => exact moves_atSenderBlock he
  | atReceiverBlock inp => exact moves_atReceiverBlock he
  | sentByOther addr tx => exact moves_sentByOther he
  | lose src dest => exact y.moves_lose src dest
  | duplicate src dest => exact y.moves_duplicate src dest

end

/-- At the start nothing is outstanding and nothing in transit. -/
theorem System.inv_start {config : SystemConfig} {bs br : State} (hL : config.Legal) (hs : bs.config.Legal) (hr : br.config.Legal) :
    (System.start config bs br).Inv :=
  (System.inv_of_idle rfl).mpr ⟨⟨hL, hs, hr, fun _ hd => absurd hd List.not_mem_nil⟩, rfl, rfl, rfl, rfl,
    ⟨[], by simp, fun _ hd => absurd hd List.not_mem_nil⟩, fun _ hd => absurd hd List.not_mem_nil⟩

/-- Settles O58: an event is one of four moves of the protocol, and each keeps the invariant. -/
theorem everyEventKeepsTheAlternatingBit : Obligations.EveryEventKeepsTheAlternatingBit :=
  ⟨fun _ _ h he => h.of_moves (System.handle_moves h he), fun _ _ _ => System.inv_start⟩

/-! ## Exactly-once delivery -/

/-- The invariant holds along every run. -/
theorem System.Inv.run {y : System} (h : y.Inv) {events : List Event} (he : ∀ e ∈ events, e.LeavesStreamAlone y.config) :
    (y.run events).Inv := by
  induction events generalizing y with
  | nil => exact h
  | cons e events ih =>
    have hy : (y.handle e).Inv := everyEventKeepsTheAlternatingBit.1 y e h (he e (by simp))
    exact ih hy fun e' he' => by rw [handle_config]; exact he e' (by simp [he'])

/-- Settles O55: the invariant holds at the end of the run, and in each of its phases the payload outstanding is the only one that
may be missing. -/
theorem exactlyOnceInOrderDelivery : Obligations.ExactlyOnceInOrderDelivery := by
  intro config bs br events hL hs hr he y
  have hinv : y.Inv := (System.inv_start hL hs hr).run he
  cases hp : y.sender.phase with
  | idle =>
    obtain ⟨_, _, _, hdelivered, hsuccesses, _⟩ := (System.inv_of_idle hp).mp hinv
    rw [hsuccesses, hdelivered]
    exact ⟨List.prefix_rfl, by omega, le_rfl⟩
  | awaitingAck frame =>
    obtain ⟨_, _, before, payload, _, hsubmitted, _, hsuccesses, hphases⟩ := (System.inv_of_awaiting hp).mp hinv
    rw [hsuccesses, hsubmitted]
    obtain ⟨_, hdelivered, _⟩ | ⟨_, hdelivered, _⟩ := hphases
    · rw [hdelivered]
      exact ⟨List.prefix_append _ _, by simp, le_rfl⟩
    · rw [hdelivered]
      exact ⟨List.prefix_rfl, by simp, by simp⟩

/-! ## The transparent channel -/

section
variable {y : System}

/-- The only datagram in transit arrives. -/
theorem System.handle_arrive_of_transit_eq {src : Endpoint} {dest : Dest} {bytes : List Byte}
    (ht : y.transit = [{ src, dest, bytes }]) :
    y.handle (.arrive src dest) = { y with transit := [] }.deliver { src, dest, bytes } := by
  simp [handle, ht, takeOldest]

/-- With the sender's thresholds zero, `submit` puts the sealed frame in transit as it is (R177). -/
theorem System.handle_submit_of_transparent {payload : List Byte} (hL : y.sender.block.config.Legal)
    (hc : y.sender.block.corruptT = 0) (hd : y.sender.block.dropT = 0) (hp : y.sender.phase = .idle) (hlen : payload.length ≤ 63)
    (ht : y.transit = []) :
    let frame := sealedBytes y.sender.block.config .data y.sender.number payload
    ∃ b, b.config = y.sender.block.config ∧ y.handle (.submit payload) =
      { y with
        sender := { block := b, number := y.sender.number, phase := .awaitingAck frame, timerArmed := true }
        transit := [{ src := .sender, dest := y.config.receiverAddr, bytes := frame }]
        submitted := y.submitted ++ [payload] } := by
  intro frame
  have hsubmit := Sender.submit_of_fits y.config.receiverAddr hL hp hlen
  simp only [State.emitted_of_thresholds_zero hc hd] at hsubmit
  rw [handle_submit, hsubmit, ht, if_pos rfl, Option.toList_none, List.append_nil]
  exact ⟨_, by rfl, rfl⟩

/-- With the receiver's thresholds zero, a sealed data unit of the expected number is delivered and its acknowledgment put in
transit as it is (R184). -/
theorem System.handle_arrive_data_of_transparent {payload : List Byte} {c : Config} (hL : y.receiver.block.config.Legal)
    (hc : y.receiver.block.corruptT = 0) (hd : y.receiver.block.dropT = 0) (hlen : payload.length ≤ 63)
    (hbuild : y.receiver.block.config = c)
    (ht : y.transit =
      [{ src := .sender, dest := y.config.receiverAddr, bytes := sealedBytes c .data y.receiver.expected payload }]) :
    ∃ b, y.handle (.arrive .sender y.config.receiverAddr) =
      { y with
        receiver :=
          { block := b, expected := toggleBit y.receiver.expected, delivered := y.receiver.delivered ++ [payload] }
        transit :=
          [{ src := .receiver, dest := y.config.senderAddr, bytes := sealedBytes c .ack y.receiver.expected [] }] } := by
  subst hbuild
  have hopen := openFrame_sealedBytes (k := .data) y.receiver.expected hL hlen (by simp)
  rw [handle_arrive_of_transit_eq ht, deliver, if_pos rfl, Receiver.receive_of_verifies _ _ hL hopen rfl rfl, if_pos rfl,
    State.emitted_of_thresholds_zero hc hd]
  exact ⟨_, rfl⟩

/-- The sealed acknowledgment of its number is accepted by the sender (R178). -/
theorem System.handle_arrive_ack_of_transparent {last : List Byte} {c : Config} (hL : y.config.Legal)
    (hLs : y.sender.block.config.Legal) (hbuild : y.sender.block.config = c) (hp : y.sender.phase = .awaitingAck last)
    (ht : y.transit = [{ src := .receiver, dest := y.config.senderAddr, bytes := sealedBytes c .ack y.sender.number [] }]) :
    ∃ b, y.handle (.arrive .receiver y.config.senderAddr) =
      { y with
        sender := { block := b, number := toggleBit y.sender.number, phase := .idle, timerArmed := false }
        transit := []
        reports := y.reports ++ [.success] } := by
  subst hbuild
  have hopen := openFrame_sealedBytes (k := .ack) (p := []) y.sender.number hLs (by simp) fun _ => rfl
  rw [handle_arrive_of_transit_eq ht, deliver, if_neg hL, if_pos rfl, Sender.receive_of_accepts hp hopen ⟨rfl, rfl, rfl⟩]
  exact ⟨_, by simp only [afterSender, emit, handOver_none]; rfl⟩

end

/-- Settles O56: the three events in turn, each on the one datagram the event before left. -/
theorem transparentChannelDelivers : Obligations.TransparentChannelDelivers := by
  intro config bs br payload hL hLs hbuild hcs hds hcr hdr hlen y
  let y₁ := (System.start config bs br).handle (.submit payload)
  let y₂ := y₁.handle (.arrive .sender config.receiverAddr)
  have hy : y = y₂.handle (.arrive .receiver config.senderAddr) := rfl
  obtain ⟨b₁, hb₁, h₁⟩ : ∃ b, _ ∧ y₁ = _ :=
    System.handle_submit_of_transparent (y := System.start config bs br) hLs hcs hds rfl hlen rfl
  have hc₁ : y₁.config = config := System.handle_config ..
  obtain ⟨b₂, h₂⟩ := System.handle_arrive_data_of_transparent (y := y₁) (payload := payload) (c := bs.config)
    (by rw [h₁]; exact hbuild ▸ hLs) (by rw [h₁]; exact hcr) (by rw [h₁]; exact hdr) hlen (by rw [h₁]; exact hbuild)
    (by rw [h₁]; rfl)
  rw [hc₁] at h₂
  have hc₂ : y₂.config = config := (System.handle_config ..).trans hc₁
  obtain ⟨b₃, h₃⟩ := System.handle_arrive_ack_of_transparent (y := y₂) (c := bs.config)
    (last := sealedBytes bs.config .data .zero payload) (by rw [hc₂]; exact hL) (by simp only [y₂, h₂, h₁]; exact hb₁ ▸ hLs)
    (by simp only [y₂, h₂, h₁]; exact hb₁) (by simp only [y₂, h₂, h₁]; rfl) (by simp only [y₂, h₂, h₁]; rfl)
  rw [hc₂] at h₃
  rw [hy, h₃]
  simp [y₂, h₂, h₁, System.start, Sender.start, Receiver.start, toggleBit]

end Sys2Proof.Machine

/-! The exception statements: every step answers, an error changes nothing but the response, and each error status has exactly its
causes (spec/60_exceptions.md R210 to R217, R225). -/

namespace Sys2Proof.Machine

/-! ## Every step answers -/

/-- Settles O6: a step without a command answers at once, and so does every instruction. -/
theorem stepAlwaysAnswers : Obligations.StepAlwaysAnswers := by
  intro s
  obtain ⟨_, e⟩ | ⟨_, _, e⟩ | ⟨_, _, _, e⟩ | ⟨_, rest, i, _, _, e⟩ := step_cases s
  · exact ⟨_, e⟩
  · exact ⟨_, e⟩
  · exact ⟨_, e⟩
  · obtain ⟨t, ht, _⟩ := exec_keeps i { s with inputs := rest }
    exact ⟨t, e.trans ht⟩

/-! ## An error has no effect but its response -/

/-- Settles O43: an instruction raises its error, which leaves the state but for the ports, or its status is `OK`. -/
theorem errorsChangeNothing : Obligations.ErrorsChangeNothing := by
  intro i s t r h hr hne
  obtain ⟨e, he⟩ | ⟨u, r', hu, hr', hok⟩ := raisesOrAnswersOk_exec i s
  · obtain rfl := raise_next (he.symm.trans h)
    cases hr
    rfl
  · cases h.symm.trans hu
    cases hr.symm.trans hr'
    exact absurd hok hne

/-! ## The causes of each error -/

/-- The `n` bytes a buffer operand names hold no frame exactly when they are fewer than two, or fewer than a DATA header fixes
(R94, R211). -/
theorem parseFrame_takeBytes_truncated_iff (n : Nat) (buf : List Byte) :
    parseFrame (takeBytes n buf) = .error .frameTruncated ↔
      n < 2 ∨ (128 ≤ (buf.getD 0 0).toNat ∧ n < (buf.getD 0 0).toNat % 64 + 2) := by
  have hlen : (takeBytes n buf).length = n := takeBytes_length n buf
  by_cases hshort : n < 2
  · exact iff_of_true (parseFrame_short _ (hlen.trans_lt hshort)) (.inl hshort)
  have hh : (takeBytes n buf).getD 0 0 = buf.getD 0 0 := takeBytes_getD n buf 0 (by omega)
  have hkind := headerKind_eq (buf.getD 0 0)
  have hlow := headerLow_toNat (buf.getD 0 0)
  by_cases hack : (buf.getD 0 0).toNat < 128
  · rw [parseFrame_of_ack hh (hkind.trans (if_pos hack)) (by omega)]
    exact iff_of_false nofun (by omega)
  have hdata : headerKind (buf.getD 0 0) = .data := hkind.trans (if_neg hack)
  by_cases hfits : (buf.getD 0 0).toNat % 64 + 2 ≤ n
  · rw [parseFrame_of_data hh hdata hlow (by omega)]
    exact iff_of_false nofun (by omega)
  · exact iff_of_true (parseFrame_of_data_truncated hh hdata (by omega)) (by omega)

/-- The causes of the five error statuses, instruction by instruction, on a build (R211, R213 to R216). -/
inductive ErrorCause (c : Config) : Instr → Status → Prop
  | decode_truncated {buf : List Byte} {blen : Nat} (hcap : blen ≤ c.bufCap)
      (h : blen < 2 ∨ (128 ≤ (buf.getD 0 0).toNat ∧ blen < (buf.getD 0 0).toNat % 64 + 2)) :
      ErrorCause c (.decode buf blen) .frameTruncated
  | encode_tooLong {seq : SeqBit} {plen : Byte} {buf : List Byte} {integ : Byte} (h : 63 < plen.toNat) :
      ErrorCause c (.encode .data seq plen buf integ) .lengthConstraint
  | compute_tooLong {seq : SeqBit} {plen : Byte} {buf : List Byte} (h : 63 < plen.toNat) :
      ErrorCause c (.compute .data seq plen buf) .lengthConstraint
  | verify_tooLong {seq : SeqBit} {plen : Byte} {buf : List Byte} {integ : Byte} (h : 63 < plen.toNat) :
      ErrorCause c (.verify .data seq plen buf integ) .lengthConstraint
  | reserved_code {i : Instr} (h : i ∈ reservedInstrs) : ErrorCause c i .illegalOp
  | cfgrd_reserved : ErrorCause c (.cfgrd 3) .illegalReg
  | cfgwr_reserved {w : Word} : ErrorCause c (.cfgwr 3 w) .illegalReg
  | decode_illegalLen {buf : List Byte} {blen : Nat} (h : c.bufCap < blen) : ErrorCause c (.decode buf blen) .illegalLen
  | send_illegalLen {buf : List Byte} {blen : Nat} {dest : Dest} (h : c.bufCap < blen) :
      ErrorCause c (.send buf blen dest) .illegalLen

/-- The payload of a DATA frame is too long above 63 bytes (R213). -/
theorem payloadTooLong_data {plen : Byte} (h : 63 < plen.toNat) : payloadTooLong .data plen = true := decide_eq_true h

/-- A payload is within its limit, or it is that of a DATA frame and above 63 bytes (R213). -/
theorem payloadTooLong_cases (kind : Kind) (plen : Byte) :
    payloadTooLong kind plen = false ∨ (kind = .data ∧ 63 < plen.toNat) := by
  cases kind with
  | ack => exact .inl rfl
  | data =>
    obtain hlong | hfits := Nat.lt_or_ge 63 plen.toNat
    · exact .inr ⟨rfl, hlong⟩
    · exact .inl (payloadTooLong_eq_false.mpr fun _ => hfits)

/-- An instruction under the cause of an error raises that error. -/
theorem ErrorCause.exec_eq_raise {i : Instr} {e : Status} {s : State} (h : ErrorCause s.config i e) : exec i s = raise e s := by
  cases h with
  | decode_truncated hcap h => exact exec_decode_of_truncated hcap ((parseFrame_takeBytes_truncated_iff _ _).mpr h)
  | encode_tooLong h => exact exec_encode_of_tooLong (payloadTooLong_data h) ..
  | compute_tooLong h => exact exec_compute_of_tooLong (payloadTooLong_data h) ..
  | verify_tooLong h => exact exec_verify_of_tooLong (payloadTooLong_data h) ..
  | reserved_code h => exact exec_of_mem_reservedInstrs h s
  | cfgrd_reserved => exact exec_cfgrd_of_none rfl
  | cfgwr_reserved => exact exec_cfgwr_of_none rfl
  | decode_illegalLen h => exact (decodeOutcome _ _ s).1 h
  | send_illegalLen h => exact exec_send_of_tooLong h ..

/-- `f` answers with status `OK`. -/
def AnswersOk (f : Result) : Prop := ∃ t r, f = .next t ∧ t.rsp = some r ∧ r.status = .ok

/-- A well-formed instruction on a legal build stands under the cause of an error, or it answers with status `OK`. -/
theorem errorCause_or_answersOk {i : Instr} {s : State} (hlegal : s.config.Legal) (hwf : i.wellFormed s.config = true) :
    (∃ e, ErrorCause s.config i e) ∨ AnswersOk (exec i s) := by
  cases i with
  | nop | toggle => exact .inr ⟨_, _, rfl, rfl, rfl⟩
  | encode kind seq plen buf integ =>
    obtain hfits | ⟨rfl, hlong⟩ := payloadTooLong_cases kind plen
    · exact .inr ⟨_, _, exec_encode_of_fits hfits .., rfl, rfl⟩
    · exact .inl ⟨_, .encode_tooLong hlong⟩
  | compute kind seq plen buf =>
    obtain hfits | ⟨rfl, hlong⟩ := payloadTooLong_cases kind plen
    · exact .inr ⟨_, _, exec_compute_of_fits hfits .., rfl, rfl⟩
    · exact .inl ⟨_, .compute_tooLong hlong⟩
  | verify kind seq plen buf integ =>
    obtain hfits | ⟨rfl, hlong⟩ := payloadTooLong_cases kind plen
    · exact .inr ⟨_, _, exec_verify_of_fits hfits .., rfl, rfl⟩
    · exact .inl ⟨_, .verify_tooLong hlong⟩
  | decode buf blen =>
    obtain ⟨hlong, _⟩ | ⟨hcap, hp, _⟩ | ⟨f, used, _, _, e⟩ := decodeBuffer_cases buf blen s
    · exact .inl ⟨_, .decode_illegalLen hlong⟩
    · exact .inl ⟨_, .decode_truncated hcap ((parseFrame_takeBytes_truncated_iff _ _).mp hp)⟩
    · exact .inr ⟨_, _, e, rfl, by cases f <;> rfl⟩
  | send buf blen dest =>
    obtain hlong | hcap := Nat.lt_or_ge s.config.bufCap blen
    · exact .inl ⟨_, .send_illegalLen hlong⟩
    · exact .inr ⟨_, _, exec_send_of_fits hcap .., rfl, rfl⟩
  | cfgwr reg w =>
    obtain ⟨_, h⟩ | ⟨_, h⟩ | ⟨_, h⟩ | ⟨rfl, _⟩ := writeRegister_cases reg w s
    on_goal 4 => exact .inl ⟨_, .cfgwr_reserved⟩
    all_goals exact .inr ⟨_, _, exec_cfgwr_of_some h, rfl, rfl⟩
  | cfgrd reg =>
    obtain ⟨_, h⟩ | ⟨_, h⟩ | ⟨_, h⟩ | ⟨rfl, _⟩ := readRegister_cases reg s
    on_goal 4 => exact .inl ⟨_, .cfgrd_reserved⟩
    all_goals exact .inr ⟨_, _, exec_cfgrd_of_some h, rfl, rfl⟩
  | reserved9 | reservedA | reservedB | reservedC | reservedD | reservedE | reservedF =>
    exact .inl ⟨_, .reserved_code (by simp [reservedInstrs])⟩
  | frameAck seq unused integ => exact .inr ⟨_, _, frameRowsAreDecoded.1 seq unused integ s hlegal, rfl, rfl⟩
  | frameData seq payload integ =>
    exact .inr ⟨_, _, frameRowsAreDecoded.2 seq payload integ s hlegal (of_decide_eq_true hwf), rfl, rfl⟩

/-- An error status is answered exactly under its cause. -/
theorem status_eq_iff_errorCause {i : Instr} {s t : State} {r : Response} (hlegal : s.config.Legal)
    (hwf : i.wellFormed s.config = true) (h : exec i s = .next t) (hr : t.rsp = some r) {e : Status} (he : e ≠ .ok) :
    r.status = e ↔ ErrorCause s.config i e := by
  have status_of_cause {e' : Status} (hc : ErrorCause s.config i e') : r.status = e' := by
    rw [raise_next (hc.exec_eq_raise.symm.trans h)] at hr
    cases hr
    rfl
  refine ⟨fun hstatus => ?_, status_of_cause⟩
  obtain ⟨e', hc⟩ | ⟨u, r', hu, hr', hok⟩ := errorCause_or_answersOk hlegal hwf
  · exact hstatus ▸ status_of_cause hc ▸ hc
  · cases h.symm.trans hu
    cases hr.symm.trans hr'
    exact absurd (hstatus.symm.trans hok) he

/-- Settles O44: each status is answered exactly under its cause, and the causes of that status are those listed. -/
theorem eachErrorHasItsCause : Obligations.EachErrorHasItsCause := by
  intro i s t r hlegal hwf h hr
  have hcause {e : Status} (he : e ≠ .ok) : r.status = e ↔ ErrorCause s.config i e :=
    status_eq_iff_errorCause hlegal hwf h hr he
  refine ⟨(hcause (by decide)).trans ⟨?_, ?_⟩, (hcause (by decide)).trans ⟨?_, ?_⟩,
    (hcause (by decide)).trans ⟨?_, .reserved_code⟩, (hcause (by decide)).trans ⟨?_, ?_⟩,
    (hcause (by decide)).trans ⟨?_, ?_⟩⟩
  · exact fun | .decode_truncated hcap hshort => ⟨_, _, rfl, hcap, hshort⟩
  · rintro ⟨buf, blen, rfl, hcap, hshort⟩
    exact .decode_truncated hcap hshort
  · exact fun
      | .encode_tooLong hlong => ⟨_, _, _, hlong, .inl ⟨_, rfl⟩⟩
      | .compute_tooLong hlong => ⟨_, _, _, hlong, .inr (.inl rfl)⟩
      | .verify_tooLong hlong => ⟨_, _, _, hlong, .inr (.inr ⟨_, rfl⟩)⟩
  · rintro ⟨seq, plen, buf, hlong, ⟨integ, rfl⟩ | rfl | ⟨integ, rfl⟩⟩
    · exact .encode_tooLong hlong
    · exact .compute_tooLong hlong
    · exact .verify_tooLong hlong
  · exact fun | .reserved_code hmem => hmem
  · exact fun
      | .cfgrd_reserved => .inl rfl
      | .cfgwr_reserved => .inr ⟨_, rfl⟩
  · rintro (rfl | ⟨w, rfl⟩)
    · exact .cfgrd_reserved
    · exact .cfgwr_reserved
  · exact fun
      | .decode_illegalLen hlong => ⟨_, _, hlong, .inl rfl⟩
      | .send_illegalLen hlong => ⟨_, _, hlong, .inr ⟨_, rfl⟩⟩
  · rintro ⟨buf, blen, hlong, rfl | ⟨dest, rfl⟩⟩
    · exact .decode_illegalLen hlong
    · exact .send_illegalLen hlong

end Sys2Proof.Machine

/-! The reset and hazard statements: what reset leaves in the registers, and what fairness brings about: a command presented is
performed, and a payload submitted is delivered (spec/70_reset_and_hazards.md R240, R253). -/

namespace Sys2Proof.Machine

/-! ## Reset -/

/-- Settles O4: the reset state is written with the values R240 gives. -/
theorem resetValues : Obligations.ResetValues := ⟨rfl, rfl, rfl⟩

/-! ## A command presented is performed -/

/-- Every step takes the first input, whatever it is, and ends with the others still to come. -/
theorem step_takes_input {s : State} {inp : HostInput} {rest : List HostInput} (hi : s.inputs = inp :: rest) :
    ∃ t, step s = .next t ∧ t.inputs = rest := by
  obtain ⟨h, _⟩ | ⟨_, h, e⟩ | ⟨_, _, h, e⟩ | ⟨_, _, i, h, _, e⟩ := step_cases s <;> cases hi.symm.trans h
  · exact ⟨_, e, rfl⟩
  · exact ⟨_, e, rfl⟩
  · obtain ⟨t, ht, _, _, hin⟩ := exec_keeps i { s with inputs := rest }
    exact ⟨t, e.trans ht, hin⟩

/-- A run of one step is that step. -/
theorem run_one (s : State) : core.run 1 s = step s := by
  have hcore : core.step s = step s := rfl
  simp only [Host.Core.run, hcore]
  cases step s <;> rfl

/-- Settles O57, by induction on what stands before the command: each step takes one input of it. -/
theorem commandPresentedIsEventuallyPerformed : Obligations.CommandPresentedIsEventuallyPerformed := by
  intro s before rest inp i hi hd
  induction before generalizing s with
  | nil => exact ⟨s, rfl, hi, (run_one s).trans (stepRunsDecodedInstruction s inp rest i hi hd)⟩
  | cons first before ih =>
    obtain ⟨u, hstep, hu⟩ := step_takes_input hi
    obtain ⟨t, hrun, ht, hperform⟩ := ih u hu
    exact ⟨t, (run_succ hstep).trans hrun, ht, (run_succ hstep).trans hperform⟩

/-! ## What an event leaves in a flow -/

/-- Over a reliable transport an event loses nothing: only the arrival of its own pair takes a datagram, the oldest, and what is
new comes behind the others (R190). -/
theorem System.flow_handle {y : System} (hr : y.config.transport = .reliable) (e : Event) (src : Endpoint) (dest : Dest) :
    ∃ new, (y.handle e).flow src dest =
      (if e = .arrive src dest then (y.flow src dest).tail else y.flow src dest) ++ new := by
  cases e with
  | submit payload => rw [handle_submit]; exact ⟨_, flow_handOver _⟩
  | timeout | atSenderBlock | atReceiverBlock | sentByOther => exact ⟨_, flow_handOver _⟩
  | lose | duplicate => exact ⟨[], by simp [handle, hr, Transport.lose, Transport.duplicate, flow]⟩
  | arrive src' dest' =>
    cases hflow : y.flow src' dest' with
    | nil =>
      rw [handle_arrive_of_flow_nil hflow]
      refine ⟨[], ?_⟩
      split
      · next he => cases he; simp [hflow]
      · simp
    | cons d rest =>
      obtain ⟨left, _, hrest, hother, he⟩ := handle_arrive_of_flow_cons hflow
      have hleft : Machine.flow src dest left =
          if Event.arrive src' dest' = .arrive src dest then (y.flow src dest).tail else y.flow src dest := by
        split
        · next h => cases h; rw [hrest, hflow]; rfl
        · next h => exact hother src dest fun hs => h (by rw [hs.1, hs.2])
      rw [he, ← hleft, deliver]
      split
      · exact ⟨_, flow_handOver _⟩
      · split
        · exact ⟨_, flow_handOver _⟩
        · exact ⟨[], (List.append_nil _).symm⟩

/-- A SEND where neither event fires puts the bytes on the link as they are (R134). -/
theorem State.sendsClean.emitted {b : State} (h : b.sendsClean) (bytes : List Byte) (dest : Dest) :
    b.emitted bytes dest = some { bytes, dest } := by
  obtain ⟨hc, hd⟩ := h
  simp [State.emitted, outgoing, hc, hd]

/-- What such a SEND hands over is in transit. -/
theorem mem_flow_of_sendsClean {b : State} (h : b.sendsClean) (src : Endpoint) (bytes : List Byte) (dest : Dest)
    (l : List Datagram) : bytes ∈ flow src dest (handOver src (b.emitted bytes dest) l) := by
  rw [h.emitted, flow_handOver]
  simp [Option.filter]

/-! ## What a move leaves of an exchange -/

section
variable {y y' : System} {frame : List Byte} {c : Config}

/-- The invariant of a sender that awaits: the timer is armed, and the frame stored is a sealed data unit of its number. -/
theorem System.Inv.awaiting_frame (h : y.Inv) (hp : y.sender.phase = .awaitingAck frame) :
    y.sender.timerArmed = true ∧
      ∃ p, p.length ≤ 63 ∧ frame = sealedBytes y.sender.block.config .data y.sender.number p := by
  obtain ⟨_, harmed, _, p, hlen, _, hframe, _⟩ := (inv_of_awaiting hp).mp h
  exact ⟨harmed, p, hlen, hframe⟩

/-- Once the receiver has the payload outstanding, every data unit in transit is of its number. -/
theorem System.Inv.data_of_expected_toggled (h : y.Inv) (hp : y.sender.phase = .awaitingAck frame)
    (hx : y.receiver.expected = toggleBit y.sender.number) :
    ∃ p, p.length ≤ 63 ∧ AllFrames .data y.sender.number p y.data := by
  obtain ⟨_, _, _, p, hlen, _, _, _, ⟨hx', _⟩ | ⟨_, _, hdata, _⟩⟩ := (inv_of_awaiting hp).mp h
  · exact absurd (hx.symm.trans hx') (toggleBit_ne _)
  · exact ⟨p, hlen, hdata⟩

/-- No move changes a build (R7). -/
theorem System.Moves.builds (hm : y.Moves y') :
    y'.sender.block.config = y.sender.block.config ∧ y'.receiver.block.config = y.receiver.block.config := by
  obtain ⟨view, _⟩ | ⟨_, _, _, view, _⟩ | ⟨_, _, _, _, _, view, _⟩ | ⟨_, _, _, _, _, _, view, _⟩ := hm <;>
    exact ⟨congrArg View.senderBuild view, congrArg View.receiverBuild view⟩

/-- While the sender awaits, nothing more is submitted; and until it is `Idle` again it keeps its frame and its number. -/
theorem System.Moves.of_awaiting (hm : y.Moves y') (hp : y.sender.phase ≠ .idle) :
    y'.submitted = y.submitted ∧
      (y'.sender.phase ≠ .idle → y'.sender.phase = y.sender.phase ∧ y'.sender.number = y.sender.number) := by
  cases hm with
  | continues view => exact ⟨congrArg View.submitted view, fun _ => ⟨congrArg View.phase view, congrArg View.number view⟩⟩
  | submits _ idle => exact absurd idle hp
  | delivers _ _ _ _ _ view =>
    exact ⟨congrArg View.submitted view, fun _ => ⟨congrArg View.phase view, congrArg View.number view⟩⟩
  | accepts _ _ _ _ _ _ view => exact ⟨congrArg View.submitted view, fun h => absurd (congrArg View.phase view) h⟩

/-- The payload outstanding is delivered once: whatever moves next, `expected` stays as its delivery left it (R184, R185). -/
theorem System.Moves.expected_of_toggled (hm : y.Moves y') (h : y.Inv) (hp : y.sender.phase = .awaitingAck frame)
    (hx : y.receiver.expected = toggleBit y.sender.number) : y'.receiver.expected = y.receiver.expected := by
  cases hm with
  | continues view => exact congrArg View.expected view
  | submits _ idle => cases hp.symm.trans idle
  | accepts _ _ _ _ _ _ view => exact congrArg View.expected view
  | delivers p d rest oldest new =>
    obtain ⟨_, _, hdata⟩ := h.data_of_expected_toggled hp hx
    exact absurd (IsFrame.seq_eq new (hdata d (by simp [oldest]))) (hx ▸ toggleBit_ne _)

/-! ## What the events of an exchange do -/

/-- A timeout whose SEND is clean puts the stored frame in transit (R180). -/
theorem System.mem_data_of_resends (h : y.Inv) (hp : y.sender.phase = .awaitingAck frame) (hc : y.sender.block.sendsClean) :
    frame ∈ (y.handle .timeout).data := by
  obtain ⟨_, hLs, _, _⟩ := h.sound
  obtain ⟨harmed, p, hlen, hframe⟩ := h.awaiting_frame hp
  have hsend := (timeoutResendsTheStoredBytes y.sender y.config.receiverAddr).1 frame hp harmed
    (hframe ▸ sealedBytes_length_le hLs hlen)
  rw [data, handle_config, handle, hsend]
  exact mem_flow_of_sendsClean hc ..

/-- Where the receiver gets the stored frame, it acknowledges it, and has its payload afterwards (R184, R185). -/
theorem System.acknowledges_stored (h : y.Inv) (hs : y.sender.block.config = c) (hr : y.receiver.block.config = c)
    (hp : y.sender.phase = .awaitingAck frame) {rest : List (List Byte)} (hdata : y.data = frame :: rest) :
    y.acknowledges (.arrive .sender y.config.receiverAddr) ∧
      (y.handle (.arrive .sender y.config.receiverAddr)).receiver.expected = toggleBit y.sender.number := by
  obtain ⟨_, _, hLr, _⟩ := h.sound
  obtain ⟨_, p, hlen, hframe⟩ := h.awaiting_frame hp
  have hopen := openFrame_sealedBytes (k := .data) y.sender.number hLr hlen (by simp)
  rw [hr, ← hs, ← hframe] at hopen
  refine ⟨⟨.sender, frame, rest, _, rfl, hdata, hopen, rfl, rfl⟩, ?_⟩
  obtain ⟨left, _, _, _, he⟩ := handle_arrive_of_flow_cons hdata
  rw [he, deliver, if_pos rfl, Receiver.receive_of_verifies _ _ hLr hopen rfl rfl]
  split
  · next hq => exact congrArg toggleBit hq.symm
  · next hq => exact eq_toggleBit_of_ne (Ne.symm hq)

/-- Once the receiver has the payload outstanding, a data unit it acknowledges in a clean SEND is answered with the acknowledgment
of that payload, which is then in transit (R185). -/
theorem System.mem_acks_of_acknowledges (h : y.Inv) (hr : y.receiver.block.config = c)
    (hp : y.sender.phase = .awaitingAck frame) (hx : y.receiver.expected = toggleBit y.sender.number)
    (hc : y.receiver.block.sendsClean) {e : Event} (ha : y.acknowledges e) :
    sealedBytes c .ack y.sender.number [] ∈ (y.handle e).acks := by
  obtain ⟨_, _, hLr, hspeak⟩ := h.sound
  obtain ⟨src, d, rest, f, rfl, hflow, hopen, hk, hv⟩ := ha
  obtain rfl : src = .sender := (onlyPeersSpeak_iff.mp hspeak src _ d (by simp [hflow])).1 rfl
  obtain ⟨p, hlen, hdata⟩ := h.data_of_expected_toggled hp hx
  obtain ⟨m, rfl⟩ := hdata d (by simp [data, hflow])
  have hq : f.seq = y.sender.number := by
    rw [openFrame_eq _ _ hLr hlen (by simp)] at hopen
    cases hopen
    rfl
  obtain ⟨left, _, _, _, he⟩ := handle_arrive_of_flow_cons hflow
  rw [acks, handle_config, he, deliver, if_pos rfl, Receiver.receive_of_verifies _ _ hLr hopen hk hv, hq, ← hr,
    if_neg (hx ▸ (toggleBit_ne _).symm)]
  exact mem_flow_of_sendsClean hc ..

/-- Where the sender gets the acknowledgment it awaits, it is `Idle` (R178). -/
theorem System.idle_of_ack (h : y.Inv) (hs : y.sender.block.config = c)
    (hp : y.sender.phase = .awaitingAck frame) {rest : List (List Byte)}
    (hacks : y.acks = sealedBytes c .ack y.sender.number [] :: rest) :
    (y.handle (.arrive .receiver y.config.senderAddr)).sender.phase = .idle := by
  obtain ⟨hL, hLs, _, _⟩ := h.sound
  have hopen := openFrame_sealedBytes (k := .ack) (p := []) y.sender.number hLs (by simp) fun _ => rfl
  obtain ⟨left, _, _, _, he⟩ := handle_arrive_of_flow_cons hacks
  rw [he, deliver, if_neg hL, if_pos rfl, ← hs, Sender.receive_of_accepts hp hopen ⟨rfl, rfl, rfl⟩]
  rfl

end

/-! ## Fair runs -/

/-- What stays as it is until something happens still holds when it happens. -/
theorem holds_until {P R : Nat → Prop} {n : Nat} (hP : ∃ m, n ≤ m ∧ P m) (hn : R n)
    (hstep : ∀ m, n ≤ m → R m → ¬P m → R (m + 1)) : ∃ m, n ≤ m ∧ P m ∧ R m := by
  by_contra hno
  have hR : ∀ m, n ≤ m → R m :=
    Nat.le_induction hn fun m hm hR => hstep m hm hR fun hPm => hno ⟨m, hm, hPm, hR⟩
  obtain ⟨m, hm, hPm⟩ := hP
  exact hno ⟨m, hm, hPm, hR m hm⟩

/-- The premises of liveness on an endless run from `y`: the invariant at its beginning, a reliable transport, two blocks of one
build, no other host on the stream, and the fairness of R253 and of the draws (R145). -/
structure System.LiveRun (y : System) (events : Nat → Event) : Prop where
  inv : y.Inv
  reliable : y.config.transport = .reliable
  sameBuild : y.receiver.block.config = y.sender.block.config
  alone : ∀ n, (events n).LeavesStreamAlone y.config
  fair : y.Fair events
  draws : y.FairDraws events

section
variable {y : System} {events : Nat → Event}

/-- What is fixed for the environment is so all along. -/
theorem System.after_config (y : System) (events : Nat → Event) (n : Nat) : (y.after events n).config = y.config := by
  induction n with
  | zero => rfl
  | succ n ih => rw [after, handle_config, ih]

/-- The data units in transit, with the address they have at the beginning. -/
theorem System.after_data (y : System) (events : Nat → Event) (n : Nat) :
    (y.after events n).data = (y.after events n).flow .sender y.config.receiverAddr := by rw [data, after_config]

/-- The acknowledgments in transit, likewise. -/
theorem System.after_acks (y : System) (events : Nat → Event) (n : Nat) :
    (y.after events n).acks = (y.after events n).flow .receiver y.config.senderAddr := by rw [acks, after_config]

/-- The alternating-bit invariant holds all along. -/
theorem System.LiveRun.after_inv (h : y.LiveRun events) (n : Nat) : (y.after events n).Inv := by
  induction n with
  | zero => exact h.inv
  | succ n ih => exact ih.of_moves (handle_moves ih (after_config y events n ▸ h.alone n))

/-- Every event of the run is a move of the protocol. -/
theorem System.LiveRun.moves (h : y.LiveRun events) (n : Nat) : (y.after events n).Moves (y.after events (n + 1)) :=
  handle_moves (h.after_inv n) (after_config y events n ▸ h.alone n)

/-- Both blocks keep the one build they have at the beginning. -/
theorem System.LiveRun.builds (h : y.LiveRun events) (n : Nat) :
    (y.after events n).sender.block.config = y.sender.block.config ∧
      (y.after events n).receiver.block.config = y.sender.block.config := by
  induction n with
  | zero => exact ⟨rfl, h.sameBuild⟩
  | succ n ih =>
    obtain ⟨hs, hr⟩ := (h.moves n).builds
    exact ⟨hs.trans ih.1, hr.trans ih.2⟩

/-- Over a reliable transport the oldest of a flow stays the oldest until an arrival of its pair, which comes (R190, R253). -/
theorem System.LiveRun.arrival (h : y.LiveRun events) {src : Endpoint} {dest : Dest} {n : Nat}
    (hne : (y.after events n).flow src dest ≠ []) :
    ∃ m, n ≤ m ∧ events m = .arrive src dest ∧
      ∃ new, (y.after events m).flow src dest = (y.after events n).flow src dest ++ new := by
  refine holds_until (h.fair.1 n src dest hne) ⟨[], (List.append_nil _).symm⟩ ?_
  rintro m _ ⟨new, hm⟩ hother
  obtain ⟨more, hmore⟩ := flow_handle (after_config y events m ▸ h.reliable) (events m) src dest
  exact ⟨new ++ more, by rw [after, hmore, if_neg hother, hm, List.append_assoc]⟩

/-- A datagram in transit arrives: each arrival of its pair takes one of those before it (R190, R253). -/
theorem System.LiveRun.arrives (h : y.LiveRun events) {src : Endpoint} {dest : Dest} {d : List Byte} {n : Nat}
    (hd : d ∈ (y.after events n).flow src dest) :
    ∃ m, n ≤ m ∧ events m = .arrive src dest ∧ ∃ rest, (y.after events m).flow src dest = d :: rest := by
  obtain ⟨older, newer, hflow⟩ := List.append_of_mem hd
  induction older generalizing n newer with
  | nil =>
    obtain ⟨m, hm, he, new, hnew⟩ := h.arrival (List.ne_nil_of_mem hd)
    exact ⟨m, hm, he, newer ++ new, by rw [hnew, hflow]; rfl⟩
  | cons oldest older ih =>
    obtain ⟨m, hm, he, new, hnew⟩ := h.arrival (List.ne_nil_of_mem hd)
    obtain ⟨more, hmore⟩ := flow_handle (after_config y events m ▸ h.reliable) (events m) src dest
    have hnext : (y.after events (m + 1)).flow src dest = older ++ d :: (newer ++ new ++ more) := by
      rw [after, hmore, if_pos he, hnew, hflow]
      simp
    obtain ⟨m', hm', harrival⟩ := ih (by simp [hnext]) _ hnext
    exact ⟨m', by omega, harrival⟩

/-! ## No payload stays outstanding for ever

The section's premise is what is refuted: a sender that awaits from the `n`-th event on, without end. -/

section
variable {n : Nat} {frame : List Byte} {q : SeqBit} (h : y.LiveRun events)
  (hw : ∀ m, n ≤ m → (y.after events m).sender.phase = .awaitingAck frame ∧ (y.after events m).sender.number = q)
include h hw

/-- The timer expires again and again, and so, with fair draws, clean copies of the stored frame come into transit. -/
theorem System.LiveRun.sends_clean (k : Nat) : ∃ m, k ≤ m ∧ frame ∈ (y.after events m).data := by
  have hresends : InfinitelyOften fun m => (y.after events m).resends (events m) := by
    intro j
    have harmed (m : Nat) (hm : n ≤ m) := ((h.after_inv m).awaiting_frame (hw m hm).1).1
    obtain ⟨m, hm, he | hoff⟩ := h.fair.2 (max j n) (harmed _ (le_max_right ..))
    · exact ⟨m, by omega, he, harmed m (by omega)⟩
    · cases (harmed m (by omega)).symm.trans hoff
  obtain ⟨m, hm, ⟨he, _⟩, hc⟩ := h.draws.1 hresends (max k n)
  refine ⟨m + 1, by omega, ?_⟩
  rw [after, he]
  exact mem_data_of_resends (h.after_inv m) (hw m (by omega)).1 hc

/-- Each of them arrives, is acknowledged, and leaves the receiver with the payload. -/
theorem System.LiveRun.acknowledges_again (k : Nat) :
    ∃ m, k ≤ m ∧ (y.after events m).acknowledges (events m) ∧ (y.after events (m + 1)).receiver.expected = toggleBit q := by
  obtain ⟨j, hj, hd⟩ := h.sends_clean hw (max k n)
  obtain ⟨m, hm, he, rest, hdata⟩ := h.arrives (after_data y events j ▸ hd)
  obtain ⟨hp, hq⟩ := hw m (by omega)
  have hstored := acknowledges_stored (h.after_inv m) (h.builds m).1 (h.builds m).2 hp ((after_data ..).trans hdata)
  rw [after_config, ← he, hq] at hstored
  exact ⟨m, by omega, hstored⟩

/-- So the receiver comes to have the payload, and has it from then on. -/
theorem System.LiveRun.expected_toggled : ∃ k, n ≤ k ∧ ∀ m, k ≤ m → (y.after events m).receiver.expected = toggleBit q := by
  obtain ⟨k, hk, _, hx⟩ := h.acknowledges_again hw n
  refine ⟨k + 1, by omega, Nat.le_induction hx fun m hm hx => ?_⟩
  obtain ⟨hp, hq⟩ := hw m (by omega)
  exact ((h.moves m).expected_of_toggled (h.after_inv m) hp (hq ▸ hx)).trans hx

/-- An acknowledgment of the payload comes into transit, arrives, and is accepted: the sender does not await for ever. -/
theorem System.LiveRun.not_awaiting : False := by
  obtain ⟨k, hk, hx⟩ := h.expected_toggled hw
  have hagain : InfinitelyOften fun m => (y.after events m).acknowledges (events m) := fun k =>
    (h.acknowledges_again hw k).imp fun _ ⟨hm, ha, _⟩ => ⟨hm, ha⟩
  obtain ⟨j, hj, ha, hc⟩ := h.draws.2 hagain k
  obtain ⟨hp, hq⟩ := hw j (by omega)
  have hack := mem_acks_of_acknowledges (h.after_inv j) (h.builds j).2 hp (hq ▸ hx j hj) hc ha
  obtain ⟨m, hm, he, rest, hacks⟩ := h.arrives (after_acks y events (j + 1) ▸ hack)
  obtain ⟨hp', hq'⟩ := hw m (by omega)
  rw [hq, ← hq', ← after_acks] at hacks
  have hidle := idle_of_ack (h.after_inv m) (h.builds m).1 hp' hacks
  rw [after_config, ← he] at hidle
  cases (hw (m + 1) (by omega)).1.symm.trans hidle

end

/-- From any moment on, the sender comes to rest. -/
theorem System.LiveRun.idle_again (h : y.LiveRun events) (n : Nat) : ∃ m, n ≤ m ∧ (y.after events m).sender.phase = .idle := by
  by_contra hno
  have hp (m : Nat) (hm : n ≤ m) : (y.after events m).sender.phase ≠ .idle := fun hp => hno ⟨m, hm, hp⟩
  cases hframe : (y.after events n).sender.phase with
  | idle => exact hp n le_rfl hframe
  | awaitingAck frame =>
    refine h.not_awaiting (n := n) (Nat.le_induction ⟨hframe, rfl⟩ fun m hm ⟨hphase, hnumber⟩ => ?_)
    obtain ⟨_, hkept⟩ := (h.moves m).of_awaiting (hp m hm)
    obtain ⟨hphase', hnumber'⟩ := hkept (hp (m + 1) (by omega))
    exact ⟨hphase'.trans hphase, hnumber'.trans hnumber⟩

/-- Until then nothing more is submitted; so what is delivered at rest is what was submitted at the beginning. -/
theorem System.LiveRun.delivers (h : y.LiveRun events) (n : Nat) :
    ∃ m, n ≤ m ∧ (y.after events m).sender.phase = .idle ∧
      (y.after events m).receiver.delivered = (y.after events n).submitted := by
  obtain ⟨m, hm, hp, hsubmitted⟩ : ∃ m, n ≤ m ∧ (y.after events m).sender.phase = .idle ∧
      (y.after events m).submitted = (y.after events n).submitted := by
    refine holds_until (h.idle_again n) rfl fun m _ hsubmitted hp => ?_
    obtain ⟨hkept, _⟩ := (h.moves m).of_awaiting hp
    exact hkept.trans hsubmitted
  obtain ⟨_, _, _, hdelivered, _⟩ := (inv_of_idle hp).mp (h.after_inv m)
  exact ⟨m, hm, hp, hdelivered.trans hsubmitted⟩

end

/-- Settles O59: a fair run from the start meets the premises of liveness, for the start meets the invariant. -/
theorem fairRunDeliversEverySubmission : Obligations.FairRunDeliversEverySubmission :=
  fun _ _ _ _ hL hr hs hb ha hfair hdraws =>
    System.LiveRun.delivers ⟨System.inv_start hL hs (hb ▸ hs), hr, hb, ha, hfair, hdraws⟩

end Sys2Proof.Machine
